-- ==== Sys2Proof/Word.lean ====
section
/-! DEFINITION. The machine word and the register index (00_scope.md R5, R6; 10_state.md R10). -/

namespace Sys2Proof

/-- A word: the 16-bit pattern held by a register, a memory word and an instruction (R5 `XLEN`, R7). -/
abbrev Word := BitVec 16

/-- The index of one of the 8 general registers, 0 to 7 (R10). -/
abbrev Reg := Fin 8

end Sys2Proof
end

