-- ==== Sys2Proof/Syntax.lean ====
section
/-! DEFINITION. The instructions: one constructor per row of spec/opcode_table.json, and the two shapes a raw
word decodes to (30_encoding.md R51 to R57). -/

namespace Sys2Proof

/-- What `decode` of R55 answers for a raw word: the two formats with exactly their fields, whatever the opcode. -/
inductive RawInstr where
  /-- Format R (R52). -/
  | r (opcode : BitVec 6) (rd rs1 rs2 : BitVec 3)
  /-- Format I (R53). -/
  | i (opcode : BitVec 2) (rd : BitVec 3) (imm : BitVec 10)
  deriving DecidableEq, Repr

/-- Why a raw word names no instruction (R58). -/
inductive DecodeError where
  /-- A format R opcode other than those of R56. -/
  | unknownOpcodeFormatR (opcode : BitVec 6)
  /-- A format I opcode other than those of R57. -/
  | unknownOpcodeFormatI (opcode : BitVec 2)
  deriving DecidableEq, Repr

/-- The twelve instructions (R56, R57). Every field of the format is kept, the ignored ones of R59 too
(log entry 19). Register fields are plain numbers: the validate step of R74 checks them (log entry 20). -/
inductive Instr where
  /-- `add Rd, Rs1, Rs2` (R91). -/
  | add (rd rs1 rs2 : Nat)
  /-- `sub Rd, Rs1, Rs2` (R92). -/
  | sub (rd rs1 rs2 : Nat)
  /-- `mul Rd, Rs1, Rs2` (R93). -/
  | mul (rd rs1 rs2 : Nat)
  /-- `div Rd, Rs1, Rs2` (R94). -/
  | div (rd rs1 rs2 : Nat)
  /-- `cmp_equal Rd, Rs1, Rs2` (R100). -/
  | cmpEqual (rd rs1 rs2 : Nat)
  /-- `cmp_not_equal Rd, Rs1, Rs2` (R101). -/
  | cmpNotEqual (rd rs1 rs2 : Nat)
  /-- `load Rd, [Rs1]`; `rs2` is ignored (R106). -/
  | load (rd rs1 rs2 : Nat)
  /-- `store [Rs1], Rs2`; `rd` is ignored (R107). -/
  | store (rd rs1 rs2 : Nat)
  /-- `syscall`; the three fields are ignored (R110). -/
  | syscall (rd rs1 rs2 : Nat)
  /-- `jump imm`; `rd` is ignored (R125). -/
  | jump (rd : Nat) (imm : BitVec 10)
  /-- `jump_cond Rd, imm`; `rd` names the condition register (R126). -/
  | jumpCond (rd : Nat) (imm : BitVec 10)
  /-- `mov Rd, imm` (R130). -/
  | mov (rd : Nat) (imm : BitVec 10)
  deriving DecidableEq, Repr

end Sys2Proof
end

