-- ==== Sys2Proof/Decode.lean ====
section
/-! DEFINITION. The instruction decoder and its inverse (30_encoding.md R50 to R59, R63), and the program file's
byte layout (R64). -/

namespace Sys2Proof

/-- `decode(w)` of R55: pure, total, never fails; bit 15 selects the format (R51) and the fields are those of
R52 and R53. -/
def decodeRaw (w : Word) : RawInstr :=
  if w.getLsbD 15 then
    .i (w.extractLsb' 13 2) (w.extractLsb' 10 3) (w.extractLsb' 0 10)
  else
    .r (w.extractLsb' 9 6) (w.extractLsb' 6 3) (w.extractLsb' 3 3) (w.extractLsb' 0 3)

/-- The format R opcode map (R56, R75); any other opcode is illegal (R58). -/
def decodeR (opcode : BitVec 6) (rd rs1 rs2 : Nat) : Except DecodeError Instr :=
  if opcode = 0#6 then .ok (.add rd rs1 rs2)
  else if opcode = 1#6 then .ok (.sub rd rs1 rs2)
  else if opcode = 2#6 then .ok (.mul rd rs1 rs2)
  else if opcode = 3#6 then .ok (.div rd rs1 rs2)
  else if opcode = 4#6 then .ok (.cmpEqual rd rs1 rs2)
  else if opcode = 5#6 then .ok (.cmpNotEqual rd rs1 rs2)
  else if opcode = 15#6 then .ok (.load rd rs1 rs2)
  else if opcode = 16#6 then .ok (.store rd rs1 rs2)
  else if opcode = 63#6 then .ok (.syscall rd rs1 rs2)
  else .error (.unknownOpcodeFormatR opcode)

/-- The format I opcode map (R57, R75); opcode 2 is illegal (R58). -/
def decodeI (opcode : BitVec 2) (rd : Nat) (imm : BitVec 10) : Except DecodeError Instr :=
  if opcode = 0#2 then .ok (.jump rd imm)
  else if opcode = 1#2 then .ok (.jumpCond rd imm)
  else if opcode = 3#2 then .ok (.mov rd imm)
  else .error (.unknownOpcodeFormatI opcode)

/-- The opcode dispatch of R75 on a decoded word. -/
def dispatchOpcode : RawInstr → Except DecodeError Instr
  | .r opcode rd rs1 rs2 => decodeR opcode rd.toNat rs1.toNat rs2.toNat
  | .i opcode rd imm => decodeI opcode rd.toNat imm

/-- The instruction a word stands for, or the name of the reason why it stands for none. -/
def decode (w : Word) : Except DecodeError Instr :=
  dispatchOpcode (decodeRaw w)

/-- `encR(op, rd, rs1, rs2)` of R63, laid out as R52 lays a format R word out. -/
def encR (opcode : BitVec 6) (rd rs1 rs2 : Nat) : Word :=
  0#1 ++ opcode ++ BitVec.ofNat 3 rd ++ BitVec.ofNat 3 rs1 ++ BitVec.ofNat 3 rs2

/-- `encI(op, rd, imm)` of R63, laid out as R53 lays a format I word out. -/
def encI (opcode : BitVec 2) (rd : Nat) (imm : BitVec 10) : Word :=
  1#1 ++ opcode ++ BitVec.ofNat 3 rd ++ imm

/-- The word of a well-formed instruction (R56, R57, R63). -/
def encode : Instr → Word
  | .add rd rs1 rs2 => encR 0#6 rd rs1 rs2
  | .sub rd rs1 rs2 => encR 1#6 rd rs1 rs2
  | .mul rd rs1 rs2 => encR 2#6 rd rs1 rs2
  | .div rd rs1 rs2 => encR 3#6 rd rs1 rs2
  | .cmpEqual rd rs1 rs2 => encR 4#6 rd rs1 rs2
  | .cmpNotEqual rd rs1 rs2 => encR 5#6 rd rs1 rs2
  | .load rd rs1 rs2 => encR 15#6 rd rs1 rs2
  | .store rd rs1 rs2 => encR 16#6 rd rs1 rs2
  | .syscall rd rs1 rs2 => encR 63#6 rd rs1 rs2
  | .jump rd imm => encI 0#2 rd imm
  | .jumpCond rd imm => encI 1#2 rd imm
  | .mov rd imm => encI 3#2 rd imm

/-- The word that a table row's `nbits` bits `w` stand for; the bits above `nbits` are zero. Every instruction is
one word (R50). -/
def tableWord (nbits w : Nat) : Word :=
  BitVec.ofNat 16 (w % 2 ^ nbits)

/-- The instruction the decoder reads from the bits `w`, numbered as spec/opcode_table.json numbers them. -/
def decodeTableWord (nbits w : Nat) : Option Instr :=
  match decode (tableWord nbits w) with
  | .ok i => some i
  | .error _ => none

/-- The words of a program file (R64): two bytes each, low byte first; none for an odd number of bytes (R148). -/
def wordsOfBytes : List (BitVec 8) → Option (List Word)
  | [] => some []
  | [_] => none
  | lo :: hi :: rest => (wordsOfBytes rest).map fun ws => (hi ++ lo) :: ws

end Sys2Proof
end

