-- ==== Sys2Proof/Config.lean ====
section
/-! DEFINITION. The parameters of 00_scope.md R5 and the values the spec leaves free. -/

namespace Sys2Proof

/-- `NUM_REGS` (R5): how many general registers there are. -/
abbrev Config.numRegs : Nat := 8

/-- `MEM_WORDS` (R5): the total memory capacity in words. -/
abbrev Config.memWords : Nat := 65536

/-- `DATA_BASE` (R5): the absolute word address where the data region starts. -/
abbrev Config.dataBase : Nat := 1024

/-- `DATA_WORDS` (R5): `MEM_WORDS - DATA_BASE`. -/
abbrev Config.dataWords : Nat := Config.memWords - Config.dataBase

/-- `MAX_CYCLES` (R5): the run loop's cycle ceiling. -/
abbrev Config.maxCycles : Nat := 100000

/-- `MAX_INSTR` (R5): the largest admitted number of loaded words. -/
abbrev Config.maxInstr : Nat := 1024

/-- The two admitted values of the parameter `SYSCALL1_PARTIAL_OUTPUT` (R5). -/
inductive PartialOutput where
  /-- `emit_prefix`: the words scanned before the fault are in the output stream. -/
  | emitPrefix
  /-- `emit_nothing`: the faulting service leaves nothing in the output stream. -/
  | emitNothing
  deriving DecidableEq, Repr, Inhabited

/-- `SYSCALL1_PARTIAL_OUTPUT` (R5, R113, U6): OPEN in the spec, so a constant with no value here.
A claim holds for both values. Safe; log entry 9. -/
opaque Config.syscall1PartialOutput : PartialOutput

/-- The host's answer to the `n`-th call of `TimeNow()` since reset (R118, U4): a free 16-bit value under
no law. Log entry 7. -/
opaque Config.timeNow : Nat → Word

end Sys2Proof
end

