-- ==== Sys2Proof/Machine/State.lean ====
section
/-! DEFINITION. The machine's state as plain data (10_state.md R27), its reset value (R26), the error kinds
(60_exceptions.md R140), and the record one cycle passes between its steps (40_cycle.md R71). -/

namespace Sys2Proof.Machine

/-- The register file: exactly 8 slots of 16 bits (R10). -/
abbrev RegFile := Vector Word 8

/-- The data region as (relative address, word) cells in one canonical form (`Memory.wf`): a word that is not
listed reads 0x0000 (R32, R38). A cell holds a word because the word is the smallest unit (R30, R39); log entry 1. -/
abbrev Memory := List (Nat × Word)

/-- The error kinds E1 to E8 of R140, each with the `info` that `Error(kind, info)` records. -/
inductive Err where
  /-- E1 (R141): the fetch address. -/
  | invalidInstructionAddress (a : Int)
  /-- E2 (R142): the register index. -/
  | invalidRegisterIndex (i : Nat)
  /-- E3 (R143): the 6-bit opcode. -/
  | unknownOpcodeFormatR (opcode : BitVec 6)
  /-- E4 (R144): the 2-bit opcode. -/
  | unknownOpcodeFormatI (opcode : BitVec 2)
  /-- E5 (R145): no info. -/
  | divisionByZero
  /-- E6 (R146): the relative address. -/
  | invalidDataAddress (a : Int)
  /-- E7 (R147): the relative address at which the scan left the data region. -/
  | syscallFault (a : Int)
  /-- E8 (R148): raised by the load, before any cycle; no run has it as its status. -/
  | loadFormatError
  deriving DecidableEq, Repr

/-- Whether the machine runs and, if not, why it stopped (R17). -/
inductive Status where
  /-- The next cycle may start. -/
  | running
  /-- Service 0 asked for termination and its cycle completed. -/
  | terminated
  /-- A fatal error. -/
  | error (e : Err)
  /-- `MAX_CYCLES` cycles ran without a halt. -/
  | ceilingReached
  deriving DecidableEq, Repr

/-- A diagnostic record (R21, R165): its kind and its recorded numbers; texts are not in the spec. -/
inductive Diag where
  /-- An unrecognised service selector (R119). -/
  | unimplementedService (selector : Int)
  /-- A fatal error with its cycle number (R152). -/
  | errorReport (cycle : Nat) (e : Err)
  /-- The ceiling notice (R81). -/
  | ceilingNotice (cycle : Nat)
  /-- The notice of a clean termination (R80). -/
  | terminatedNotice
  /-- The final register dump (R28, R165). -/
  | registerDump (x : RegFile)
  deriving DecidableEq, Repr

/-- The complete state (R27), and two fields of the model's own. -/
structure State where
  /-- The general registers `x[0..7]` (R10). -/
  x : RegFile
  /-- The program counter, an index into the instruction region (R14). -/
  pc : Nat
  /-- The instruction region `imem[0..N-1]` (R31); `N` is its length (R19). -/
  imem : List Word
  /-- The data region `dmem[0..64511]` (R32). -/
  dmem : Memory
  /-- The run status (R17). -/
  status : Status
  /-- The cycles started since reset (R18). -/
  cycles : Nat
  /-- The output stream, 16-bit character codes (R20). -/
  out : List Word
  /-- The diagnostic stream (R21). -/
  diag : List Diag
  /-- The MODEL's own: how many answers of `TimeNow()` were drawn (R118; log entry 7). -/
  timeCalls : Nat
  /-- The MODEL's own: the durations in seconds handed to the host by `Suspend` (R117; log entry 8). -/
  suspendRequests : List Int
  deriving DecidableEq, Repr

/-- The state after reset and the load of no word (R26, R170 with `N = 0`). A program is loaded from outside, by
`State.start` (log entry 3). -/
def State.reset : State where
  x := Vector.replicate 8 0#16
  pc := 0
  imem := []
  dmem := []
  status := .running
  cycles := 0
  out := []
  diag := []
  timeCalls := 0
  suspendRequests := []

/-- `N`, the loaded instruction count (R19). -/
def State.loadedCount (s : State) : Nat := s.imem.length

/-- The data access an instruction requests (R71 `res.mem`), at an integer relative address. -/
inductive MemRequest where
  /-- No data access. -/
  | none
  /-- `Read(a)`. -/
  | read (a : Int)
  /-- `Write(a, v)`. -/
  | write (a : Int) (v : Word)
  deriving DecidableEq, Repr

/-- A requested register write (R71 `res.reg_write`): the index, and the word, which is none while a load's word is
still pending (R106). -/
structure RegWrite where
  /-- The register to write. -/
  index : Reg
  /-- The word to write, none while pending. -/
  value : Option Word
  deriving DecidableEq, Repr

/-- The ExecutionResult of one cycle (R71). It is no part of the state (R22). -/
structure Result where
  /-- `res.reg_write`. -/
  regWrite : Option RegWrite
  /-- `res.mem`. -/
  mem : MemRequest
  /-- `res.jump`: the target. -/
  jump : Option Nat
  /-- `res.cond_jump`: the condition register and the target. -/
  condJump : Option (Reg × Nat)
  /-- `res.terminate`. -/
  terminate : Bool
  /-- `res.error`. -/
  error : Option Err
  deriving DecidableEq, Repr

/-- The empty result (R71): no access, no write, the next instruction, keep running. -/
def Result.empty : Result where
  regWrite := none
  mem := .none
  jump := none
  condJump := none
  terminate := false
  error := none

/-- The reasons for which a step stops the machine OUTSIDE its own status. There are none: every error of the spec
is fatal to the run and is recorded in `status` (R140, R152), which is a next state (log entry 5). Safe. -/
inductive Fault
  deriving DecidableEq, Repr

/-- The reasons for which the model gives a step no meaning. -/
inductive Refusal where
  /-- The instruction of the table named here has no meaning yet. No arm of `exec` raises it: every instruction is
  modelled. Safe where raised. -/
  | notModelled (mnemonic : String)
  deriving DecidableEq, Repr

end Sys2Proof.Machine
end

