-- ==== Sys2Proof/Machine/Flags.lean ====
section
/-! DEFINITION. The machine has no flags (10_state.md R16): a comparison writes 1 or 0 to a general register
(42_compare.md R102) and the conditional jump tests a register for the value 1 (45_control_transfer.md R126). Both
uses of that truth value stand here. -/

namespace Sys2Proof.Machine

/-- The word a comparison writes: 0x0001 when it holds, 0x0000 when it does not (R102). -/
def truthWord (b : Bool) : Word := if b then 1#16 else 0#16

/-- Whether a condition register's word makes `jump_cond` jump: exactly when it is 1 (R79, R126). -/
def conditionHolds (v : Word) : Bool := v == 1#16

end Sys2Proof.Machine
end

