-- ==== Sys2Proof/Machine/Operands.lean ====
section
/-! DEFINITION. The readings of words and the operand forms: signed and unsigned readings, wrapping, the two readings
of the immediate, register operands, register-indirect data addresses (00_scope.md R7; 30_encoding.md R54;
20_memory.md R48). -/

namespace Sys2Proof.Machine

/-- `u(v)`: the unsigned reading of a word, 0 to 65535 (R7). -/
def unsigned (v : Word) : Nat := v.toNat

/-- `s(v)`: the two's-complement reading of a word, -32768 to 32767 (R7). -/
def signed (v : Word) : Int :=
  if v.getLsbD 15 then (v.toNat : Int) - 65536 else (v.toNat : Int)

/-- `wrap16(z)`: the word whose unsigned reading is `z mod 65536` (R7). -/
def wrap16 (z : Int) : Word := BitVec.ofNat 16 (z % 65536).toNat

/-- `sext_10(i)`: bit 9 is the sign; if set, bits 10 to 15 are forced to 1 (R7, R54). -/
def sext10 (i : BitVec 10) : Word :=
  if i.getLsbD 9 then 0xFC00#16 ||| i.setWidth 16 else i.setWidth 16

/-- `imm_u`: the immediate as an unsigned integer 0 to 1023, a jump target (R54). -/
def immU (imm : BitVec 10) : Nat := imm.toNat

/-- `imm_s`: the immediate as a sign-extended word, the value of `mov` (R54). -/
def immS (imm : BitVec 10) : Word := sext10 imm

/-- `x[i]`: the word held by a register (R8, R10). A read changes nothing (R11). -/
def State.reg (s : State) (r : Reg) : Word := s.x[r]

/-- `A` and `B` of R90: the signed reading of a register operand. -/
def State.regSigned (s : State) (r : Reg) : Int := signed (s.reg r)

/-- The relative data address a register names: its signed reading (R48). -/
def State.dataAddress (s : State) (r : Reg) : Int := signed (s.reg r)

end Sys2Proof.Machine
end

