-- ==== Sys2Proof/Machine/Ops.lean ====
section
/-! DEFINITION. The shared operations: register file, memory primitives, halting (the one way every error is taken),
the start of a run, and the steps of a cycle that all instructions share (40_cycle.md). -/

namespace Sys2Proof.Machine

/-! ## Register file (10_state.md R10, R11) -/

/-- The check of a register index (R74): the register, or `InvalidRegisterIndex` (R142). -/
def checkIndex (i : Nat) : Except Err Reg :=
  if h : i < 8 then .ok ⟨i, h⟩ else .error (.invalidRegisterIndex i)

/-- `get(index)` of R11, for any index. -/
def RegFile.get (x : RegFile) (index : Nat) : Except Err Word :=
  match checkIndex index with
  | .ok r => .ok x[r]
  | .error e => .error e

/-- `set(index, value)` of R11, for any index. -/
def RegFile.set (x : RegFile) (index : Nat) (value : Word) : Except Err RegFile :=
  match checkIndex index with
  | .ok r => .ok (Vector.set x r value)
  | .error e => .error e

/-- `x[i] <- v` for a checked index (R8, R11): changes only the named register. -/
def State.setReg (s : State) (r : Reg) (v : Word) : State :=
  { s with x := Vector.set s.x r v }

/-! ## Memory (20_memory.md) -/

/-- The word at a relative address; a word that is not listed was never stored, or stored as zero, and reads 0x0000
(R32, R38). -/
def Memory.read : Memory → Nat → Word
  | [], _ => 0#16
  | (b, w) :: rest, a => if b = a then w else Memory.read rest a

/-- The cells with the word at `a` made `v`; the canonical form is kept (a zero word is not listed). -/
def Memory.write : Memory → Nat → Word → Memory
  | [], a, v => if v = 0#16 then [] else [(a, v)]
  | (b, w) :: rest, a, v =>
    if a < b then
      if v = 0#16 then (b, w) :: rest else (a, v) :: (b, w) :: rest
    else if a = b then
      if v = 0#16 then rest else (a, v) :: rest
    else (b, w) :: Memory.write rest a v

/-- The canonical form: addresses strictly rising, no cell equal to what an unlisted address reads as, every address
in the data region. -/
abbrev Memory.wf (m : Memory) : Prop :=
  m.Pairwise (fun c d => c.1 < d.1) ∧ ∀ c ∈ m, c.2 ≠ 0#16 ∧ c.1 < Config.dataWords

/-- The absolute address of a relative data address (R32, R36). -/
def absoluteAddress (a : Int) : Int := Config.dataBase + a

/-- The bounds test of R36 and R37: the absolute address falls outside the data region. -/
def outsideDataRegion (a : Int) : Bool :=
  decide (absoluteAddress a < Config.dataBase) || decide (absoluteAddress a ≥ Config.memWords)

/-- `IFetch(a)` (R35): the word at index `a` of the instruction region, bounded by the loaded count. -/
def iFetch (s : State) (a : Int) : Except Err Word :=
  if a < 0 then .error (.invalidInstructionAddress a)
  else match s.imem[a.toNat]? with
    | some w => .ok w
    | none => .error (.invalidInstructionAddress a)

/-- `MemRead(a, 1)` (R36). -/
def memRead (m : Memory) (a : Int) : Except Err Word :=
  if outsideDataRegion a then .error (.invalidDataAddress a) else .ok (m.read a.toNat)

/-- `MemWrite(a, 1, v)` (R37): a failed write changes nothing. -/
def memWrite (m : Memory) (a : Int) (v : Word) : Except Err Memory :=
  if outsideDataRegion a then .error (.invalidDataAddress a) else .ok (m.write a.toNat v)

/-! ## Output, time and suspension (10_state.md R20, R21; 44_syscall.md R117, R118) -/

/-- `Out(c)` for each code of a text, in order (R8, R20). -/
def State.emit (s : State) (text : List Word) : State :=
  { s with out := s.out ++ text }

/-- `Diag(d)` (R8, R21). -/
def State.diagnose (s : State) (records : List Diag) : State :=
  { s with diag := s.diag ++ records }

/-- `Suspend(v)` (R8, R117): the request, `s(v)` seconds, is recorded and the machine moves on (log entry 8). -/
def State.suspend (s : State) (v : Word) : State :=
  { s with suspendRequests := s.suspendRequests ++ [signed v] }

/-- `TimeNow()` (R8, R118): the next answer of the host, a free value. -/
def State.timeNow (s : State) : Word := Config.timeNow s.timeCalls

/-- One answer of the host has been used; the next call draws anew (R118). -/
def State.drawTime (s : State) : State := { s with timeCalls := s.timeCalls + 1 }

/-! ## Halting and starting (60_exceptions.md R152, R165; 70_reset_and_hazards.md R170) -/

/-- A halt: the status, its notice, and the register dump that follows it at every kind of halt (R165). -/
def State.halt (s : State) (st : Status) (notice : Diag) : State :=
  { s.diagnose [notice, .registerDump s.x] with status := st }

/-- Taking an error, any error (R152): status `Error(kind, info)` and the report with the cycle number. The machine
saves nothing, switches nothing and transfers control nowhere. -/
def State.raise (s : State) (e : Err) : State :=
  s.halt (.error e) (.errorReport s.cycles e)

/-- Clean termination (R80, R112). -/
def State.finish (s : State) : State := s.halt .terminated .terminatedNotice

/-- The cycle ceiling (R81, R82): no error. -/
def State.reachCeiling (s : State) : State := s.halt .ceilingReached (.ceilingNotice s.cycles)

/-- `start(words)` (R170), the only way on from a halt (R155): the load and the reset together. A load of more than
`MAX_INSTR` words is refused and no run starts (R38, R148). -/
def State.start (words : List Word) : Except Err State :=
  if words.length ≤ Config.maxInstr then .ok { State.reset with imem := words }
  else .error .loadFormatError

/-- The run a program file starts: refused for an odd number of bytes (R64, R148) or too many words. -/
def State.startFile (bytes : List (BitVec 8)) : Except Err State :=
  match wordsOfBytes bytes with
  | some words => State.start words
  | none => .error .loadFormatError

/-- The instruction words with `w` placed at an index (for `State.withFetchWord`). -/
def placeWord : List Word → Nat → Word → List Word
  | [], 0, w => [w]
  | [], n + 1, w => 0#16 :: placeWord [] n w
  | _ :: rest, 0, w => w :: rest
  | v :: rest, n + 1, w => v :: placeWord rest n w

/-! ## The steps of a cycle (40_cycle.md) -/

/-- The ceiling test, made before each cycle (R82). -/
def ceilingReached (s : State) : Bool := decide (s.cycles ≥ Config.maxCycles)

/-- The count at the start of each cycle (R18, R81). -/
def State.countCycle (s : State) : State := { s with cycles := s.cycles + 1 }

/-- Step 1, Fetch (R72). -/
def fetch (s : State) : Except Err Word := iFetch s s.pc

/-- Step 3, Validate, for format R: rd, then rs1, then rs2 (R74). -/
def validateR (rd rs1 rs2 : Nat) : Except Err (Reg × Reg × Reg) :=
  match checkIndex rd with
  | .error e => .error e
  | .ok d =>
    match checkIndex rs1 with
    | .error e => .error e
    | .ok a =>
      match checkIndex rs2 with
      | .error e => .error e
      | .ok b => .ok (d, a, b)

/-- Step 5, Memory access (R77): the word read fills the pending register write. -/
def accessMemory (s : State) (res : Result) : Except Err (State × Result) :=
  match res.mem with
  | .none => .ok (s, res)
  | .read a =>
    match memRead s.dmem a with
    | .error e => .error e
    | .ok v => .ok (s, { res with regWrite := res.regWrite.map fun rw => { rw with value := some v } })
  | .write a v =>
    match memWrite s.dmem a v with
    | .error e => .error e
    | .ok m => .ok ({ s with dmem := m }, res)

/-- Step 6, Write-back (R78): at most one register is written. -/
def writeBack (s : State) (res : Result) : State :=
  match res.regWrite with
  | some ⟨r, some v⟩ => s.setReg r v
  | _ => s

/-- The value step 7 gives `pc`, the condition register read now, after write-back (R79, R181). -/
def nextPc (s : State) (res : Result) : Nat :=
  match res.jump, res.condJump with
  | some t, _ => t
  | none, some (c, t) => if conditionHolds (s.reg c) then t else s.pc + 1
  | none, none => s.pc + 1

/-- Step 7, Program-counter update (R79). -/
def updatePc (s : State) (res : Result) : State := { s with pc := nextPc s res }

/-- Step 8, Termination check (R80). -/
def checkTermination (s : State) (res : Result) : State :=
  let s' := if res.terminate then s.finish else s
  match res.error with
  | some e => s'.raise e
  | none => s'

/-- Steps 5 to 8 on an execution result. A memory error ends the cycle at step 5 (R77, R153). -/
def finishCycle (s : State) (res : Result) : State :=
  match accessMemory s res with
  | .error e => s.raise e
  | .ok (s5, res5) => checkTermination (updatePc (writeBack s5 res5) res5) res5

/-- Steps 3 to 8 of a format R instruction: validate, then `execute` (step 4, with the checked registers), then the
rest. A bad register index ends the cycle before any mutation (R74, R142). -/
def cycleR (rd rs1 rs2 : Nat) (execute : Reg → Reg → Reg → State × Result) (s : State) : State :=
  match validateR rd rs1 rs2 with
  | .error e => s.raise e
  | .ok (d, a, b) => finishCycle (execute d a b).1 (execute d a b).2

/-- Steps 3 to 8 of a format I instruction (R74). -/
def cycleI (rd : Nat) (execute : Reg → State × Result) (s : State) : State :=
  match checkIndex rd with
  | .error e => s.raise e
  | .ok d => finishCycle (execute d).1 (execute d).2

/-! ## The execution results the instructions share (R71) -/

/-- A result that only writes a register (R78). -/
def Result.write (r : Reg) (v : Word) : Result :=
  { Result.empty with regWrite := some ⟨r, some v⟩ }

/-- A result that only carries an error (R75, R94, R120). -/
def Result.fail (e : Err) : Result := { Result.empty with error := some e }

/-! ## Illegal words (30_encoding.md R58) -/

/-- The error an unknown opcode raises (R143, R144). -/
def Err.ofDecode : DecodeError → Err
  | .unknownOpcodeFormatR opcode => .unknownOpcodeFormatR opcode
  | .unknownOpcodeFormatI opcode => .unknownOpcodeFormatI opcode

/-- Steps 3 to 8 for a word with no opcode of R56 or R57: it passes validate, and its error travels in the result, so
`pc` moves on and the run halts in step 8 (R58, R75, R153). -/
def cycleIllegal (raw : RawInstr) (e : DecodeError) (s : State) : State :=
  match raw with
  | .r _ rd rs1 rs2 =>
    cycleR rd.toNat rs1.toNat rs2.toNat (fun _ _ _ => (s, Result.fail (Err.ofDecode e))) s
  | .i _ rd _ => cycleI rd.toNat (fun _ => (s, Result.fail (Err.ofDecode e))) s

end Sys2Proof.Machine
end

