-- ==== Sys2Proof/Machine/Arithmetic.lean ====
section
/-! DEFINITION. Arithmetic: add, sub, mul, div (41_arithmetic.md R90 to R95). -/

namespace Sys2Proof.Machine

/-- An arithmetic instruction that cannot fail (R90): `x[rd] <- wrap16(A op B)` on the signed readings of its sources,
`rs1` left and `rs2` right. -/
def arithmetic (op : Int → Int → Int) (rd rs1 rs2 : Nat) (s : State) : State :=
  cycleR rd rs1 rs2 (fun d a b => (s, Result.write d (wrap16 (op (s.regSigned a) (s.regSigned b))))) s

/-- `tdiv(a, b)` of R8: the quotient rounded toward zero, `sign(a) * sign(b) * floor(|a| / |b|)` (R94). -/
def tdiv (a b : Int) : Int := a.sign * b.sign * (a.natAbs / b.natAbs : Nat)

/-- `add` (R91). -/
def execAdd (rd rs1 rs2 : Nat) (s : State) : Host.Outcome State Fault Refusal :=
  .next (arithmetic (fun A B => A + B) rd rs1 rs2 s)

/-- `sub` (R92). -/
def execSub (rd rs1 rs2 : Nat) (s : State) : Host.Outcome State Fault Refusal :=
  .next (arithmetic (fun A B => A - B) rd rs1 rs2 s)

/-- `mul` (R93). -/
def execMul (rd rs1 rs2 : Nat) (s : State) : Host.Outcome State Fault Refusal :=
  .next (arithmetic (fun A B => A * B) rd rs1 rs2 s)

/-- What the execute step of `div` produces (R94): the quotient, or the error DivisionByZero and no register write. -/
def divResult (d a b : Reg) (s : State) : Result :=
  if s.regSigned b = 0 then Result.fail .divisionByZero
  else Result.write d (wrap16 (tdiv (s.regSigned a) (s.regSigned b)))

/-- `div` (R94). -/
def execDiv (rd rs1 rs2 : Nat) (s : State) : Host.Outcome State Fault Refusal :=
  .next (cycleR rd rs1 rs2 (fun d a b => (s, divResult d a b s)) s)

end Sys2Proof.Machine
end

