-- ==== Sys2Proof/Machine/Compare.lean ====
section
/-! DEFINITION. Comparison: cmp_equal, cmp_not_equal (42_compare.md R100 to R102). -/

namespace Sys2Proof.Machine

/-- A comparison of the two whole source words, its 1 or 0 written to `x[rd]` (R102). -/
def compare (holds : Word → Word → Bool) (rd rs1 rs2 : Nat) (s : State) : State :=
  cycleR rd rs1 rs2 (fun d a b => (s, Result.write d (truthWord (holds (s.reg a) (s.reg b))))) s

/-- `cmp_equal` (R100). -/
def execCmpEqual (rd rs1 rs2 : Nat) (s : State) : Host.Outcome State Fault Refusal :=
  .next (compare (fun v w => v == w) rd rs1 rs2 s)

/-- `cmp_not_equal` (R101). -/
def execCmpNotEqual (rd rs1 rs2 : Nat) (s : State) : Host.Outcome State Fault Refusal :=
  .next (compare (fun v w => v != w) rd rs1 rs2 s)

end Sys2Proof.Machine
end

