-- ==== Sys2Proof/Machine/ControlTransfer.lean ====
section
/-! DEFINITION. Control transfer: jump, jump_cond (45_control_transfer.md R125 to R127). The target is the unsigned
immediate, an absolute instruction address, not checked when the jump executes. -/

namespace Sys2Proof.Machine

/-- `jump` (R125); the `rd` field is ignored but validated (R59). -/
def execJump (rd : Nat) (imm : BitVec 10) (s : State) : Host.Outcome State Fault Refusal :=
  .next (cycleI rd (fun _ => (s, { Result.empty with jump := some (immU imm) })) s)

/-- `jump_cond` (R126); the condition register is read in step 7. -/
def execJumpCond (rd : Nat) (imm : BitVec 10) (s : State) : Host.Outcome State Fault Refusal :=
  .next (cycleI rd (fun c => (s, { Result.empty with condJump := some (c, immU imm) })) s)

end Sys2Proof.Machine
end

