-- ==== Sys2Proof/Machine/LoadStore.lean ====
section
/-! DEFINITION. Load and store (43_load_store.md R105 to R107): register indirect, one whole word, the address from
`x[rs1]`, the bounds check in the memory step. -/

namespace Sys2Proof.Machine

/-- The execute step of `load` (R106): a read request and a pending register write. -/
def loadResult (d a : Reg) (s : State) : Result :=
  { Result.empty with mem := .read (s.dataAddress a), regWrite := some ⟨d, none⟩ }

/-- The execute step of `store` (R107): a write request of `x[rs2]`. -/
def storeResult (a b : Reg) (s : State) : Result :=
  { Result.empty with mem := .write (s.dataAddress a) (s.reg b) }

/-- `load` (R106); the `rs2` field is ignored but validated (R59). -/
def execLoad (rd rs1 rs2 : Nat) (s : State) : Host.Outcome State Fault Refusal :=
  .next (cycleR rd rs1 rs2 (fun d a _ => (s, loadResult d a s)) s)

/-- `store` (R107); the `rd` field is ignored but validated (R59). -/
def execStore (rd rs1 rs2 : Nat) (s : State) : Host.Outcome State Fault Refusal :=
  .next (cycleR rd rs1 rs2 (fun _ a b => (s, storeResult a b s)) s)

end Sys2Proof.Machine
end

