-- ==== Sys2Proof/Machine/MoveImmediate.lean ====
section
/-! DEFINITION. Move immediate: mov (46_move_immediate.md R130, R131). -/

namespace Sys2Proof.Machine

/-- `mov` (R130): `x[rd]` becomes the sign-extended immediate. -/
def execMov (rd : Nat) (imm : BitVec 10) (s : State) : Host.Outcome State Fault Refusal :=
  .next (cycleI rd (fun d => (s, Result.write d (immS imm))) s)

end Sys2Proof.Machine
end

