-- ==== Sys2Proof/Machine/Syscall.lean ====
section
/-! DEFINITION. The syscall instruction and its services (44_syscall.md R110 to R121). Everything a service does
happens in the execute step (R121). -/

namespace Sys2Proof.Machine

/-! ## The string scan of service 1 (R113) -/

/-- Scan the data region upward from `a` with `left` words left before its end: the non-zero words before the first
zero word, and the address at which the scan left the region, if it did. -/
def scanString (m : Memory) : (left a : Nat) → List Word × Option Int
  | 0, a => ([], some a)
  | left + 1, a =>
    if m.read a = 0#16 then ([], none)
    else (m.read a :: (scanString m left (a + 1)).1, (scanString m left (a + 1)).2)

/-- The scan from an integer start address: a negative one, like one past the region, faults at once (R113). -/
def scanFrom (m : Memory) (a : Int) : List Word × Option Int :=
  if outsideDataRegion a then ([], some a) else scanString m (Config.dataWords - a.toNat) a.toNat

/-- What `out` receives of the words scanned before a fault (R113, `SYSCALL1_PARTIAL_OUTPUT`). -/
def partialText (p : PartialOutput) (text : List Word) : List Word :=
  match p with
  | .emitPrefix => text
  | .emitNothing => []

/-! ## The decimal text of service 3 (R115) -/

/-- The decimal digits of `n`, most significant first, no leading zero; `fuel` bounds their number. -/
def decimalDigits : (fuel n : Nat) → List Nat
  | 0, _ => []
  | fuel + 1, n => if n < 10 then [n] else decimalDigits fuel (n / 10) ++ [n % 10]

/-- The character codes of `decimal(z)` (R115): a minus sign (45) when negative, then the digits (48 to 57). -/
def decimal (z : Int) : List Word :=
  (if z < 0 then [45#16] else []) ++
    (decimalDigits (z.natAbs + 1) z.natAbs).map fun d => BitVec.ofNat 16 (48 + d)

/-! ## The services -/

/-- Service 0, terminate (R112). -/
def serviceTerminate (s : State) : State × Result :=
  (s, { Result.empty with terminate := true })

/-- Service 1, print string (R113); a fault goes through the result's error part (R120). -/
def servicePrintString (s : State) : State × Result :=
  match scanFrom s.dmem (s.dataAddress 1) with
  | (text, none) => (s.emit text, Result.empty)
  | (text, some a) => (s.emit (partialText Config.syscall1PartialOutput text), Result.fail (.syscallFault a))

/-- Service 2, print newline: the single code 10 (R114). -/
def servicePrintNewline (s : State) : State × Result :=
  (s.emit [10#16], Result.empty)

/-- Service 3, print integer (R115). -/
def servicePrintInteger (s : State) : State × Result :=
  (s.emit (decimal (s.regSigned 1)), Result.empty)

/-- Service 6, sleep (R117). -/
def serviceSleep (s : State) : State × Result :=
  (s.suspend (s.reg 1), Result.empty)

/-- Service 7, get time (R118): written at once, not through `res.reg_write`. -/
def serviceGetTime (s : State) : State × Result :=
  ((s.setReg 1 s.timeNow).drawTime, Result.empty)

/-- Any other selector: a no-op reported as a diagnostic (R119). -/
def serviceUnimplemented (s : State) : State × Result :=
  (s.diagnose [.unimplementedService (s.regSigned 0)], Result.empty)

/-- The service the selector `s(x[0])` picks (R110, R111). -/
def serviceOf (selector : Int) : State → State × Result :=
  if selector = 0 then serviceTerminate
  else if selector = 1 then servicePrintString
  else if selector = 2 then servicePrintNewline
  else if selector = 3 then servicePrintInteger
  else if selector = 6 then serviceSleep
  else if selector = 7 then serviceGetTime
  else serviceUnimplemented

/-- `syscall` (R110); the register fields are ignored but validated (R59). -/
def execSyscall (rd rs1 rs2 : Nat) (s : State) : Host.Outcome State Fault Refusal :=
  .next (cycleR rd rs1 rs2 (fun _ _ _ => serviceOf (s.regSigned 0) s) s)

end Sys2Proof.Machine
end

