-- ==== Sys2Proof/Machine/Dispatch.lean ====
section
/-! DEFINITION. The dispatch on the instruction (40_cycle.md R75): steps 3 to 8 of a cycle whose count is already
made. -/

namespace Sys2Proof.Machine

def exec (i : Instr) (s : State) : Host.Outcome State Fault Refusal :=
  match i with
  | .add rd rs1 rs2 => Sys2Proof.Machine.execAdd rd rs1 rs2 s
  | .sub rd rs1 rs2 => Sys2Proof.Machine.execSub rd rs1 rs2 s
  | .mul rd rs1 rs2 => Sys2Proof.Machine.execMul rd rs1 rs2 s
  | .div rd rs1 rs2 => Sys2Proof.Machine.execDiv rd rs1 rs2 s
  | .cmpEqual rd rs1 rs2 => Sys2Proof.Machine.execCmpEqual rd rs1 rs2 s
  | .cmpNotEqual rd rs1 rs2 => Sys2Proof.Machine.execCmpNotEqual rd rs1 rs2 s
  | .load rd rs1 rs2 => Sys2Proof.Machine.execLoad rd rs1 rs2 s
  | .store rd rs1 rs2 => Sys2Proof.Machine.execStore rd rs1 rs2 s
  | .syscall rd rs1 rs2 => Sys2Proof.Machine.execSyscall rd rs1 rs2 s
  | .jump rd imm => Sys2Proof.Machine.execJump rd imm s
  | .jumpCond rd imm => Sys2Proof.Machine.execJumpCond rd imm s
  | .mov rd imm => Sys2Proof.Machine.execMov rd imm s

end Sys2Proof.Machine
end

