-- ==== Sys2Proof/Machine/Step.lean ====
section
/-! DEFINITION. One step: one pass of the run loop's body (40_cycle.md R81, R84). -/

namespace Sys2Proof.Machine

/-- One cycle whose count is already made (R84): fetch, decode, and steps 3 to 8 of the word's instruction. -/
def cycle (s : State) : Host.Outcome State Fault Refusal :=
  match fetch s with
  | .error e => .next (s.raise e)
  | .ok w =>
    match decode w with
    | .ok i => exec i s
    | .error e => .next (cycleIllegal (decodeRaw w) e s)

/-- One step (R81): a machine that does not run stays as it is (R85, log entry 4); the ceiling is tested before the
cycle (R82); the cycle is counted and run. -/
def step (s : State) : Host.Outcome State Fault Refusal :=
  match s.status with
  | .running => if ceilingReached s then .next s.reachCeiling else cycle s.countCycle
  | .terminated => .next s
  | .error _ => .next s
  | .ceilingReached => .next s

/-- The state with the instruction of a table row's bits stored where the next step of a running machine fetches: at
index `pc` of the instruction region. It stands for the load of a program (log entry 3). -/
def State.withFetchWord (s : State) (nbits w : Nat) : State :=
  { s with imem := placeWord s.imem s.pc (tableWord nbits w) }

end Sys2Proof.Machine
end

