-- ==== Sys2Proof/WellFormed.lean ====
section
/-! DEFINITION. Which terms of `Instr` an instruction word can stand for: every register field is the index of a
register (40_cycle.md R74; 30_encoding.md R52, R53). -/

namespace Sys2Proof

/-- Every register field the instruction carries, used or not, in the order the validate step checks them (R74):
rd, and for format R also rs1 and rs2. -/
def Instr.registerFields : Instr → List Nat
  | .add rd rs1 rs2 => [rd, rs1, rs2]
  | .sub rd rs1 rs2 => [rd, rs1, rs2]
  | .mul rd rs1 rs2 => [rd, rs1, rs2]
  | .div rd rs1 rs2 => [rd, rs1, rs2]
  | .cmpEqual rd rs1 rs2 => [rd, rs1, rs2]
  | .cmpNotEqual rd rs1 rs2 => [rd, rs1, rs2]
  | .load rd rs1 rs2 => [rd, rs1, rs2]
  | .store rd rs1 rs2 => [rd, rs1, rs2]
  | .syscall rd rs1 rs2 => [rd, rs1, rs2]
  | .jump rd _ => [rd]
  | .jumpCond rd _ => [rd]
  | .mov rd _ => [rd]

/-- The instruction's register fields are all indices of registers (R74). -/
def Instr.wellFormed (i : Instr) : Bool :=
  i.registerFields.all fun r => decide (r < Config.numRegs)

end Sys2Proof
end

