-- ==== Sys2Proof/Safety.lean ====
section
/-! DEFINITION. The terms the statements use: when a step starts a cycle, what a step leaves as it was, and the
invariant of the machine. -/

namespace Sys2Proof.Machine

/-- The next step starts a cycle: the machine runs and the ceiling is not reached (R81, R82). -/
abbrev State.startsCycle (s : State) : Prop := s.status = .running ∧ s.cycles < Config.maxCycles

/-- `k` steps of the machine: `Host.Core.run` of `Sys2Proof.core`, over the model's own type of states (the law
`runSteps_eq_run` says that the two are the same). -/
def runSteps : Nat → State → Host.Outcome State Fault Refusal
  | 0, s => .next s
  | k + 1, s =>
    match step s with
    | .next t => runSteps k t
    | .fault r => .fault r
    | .refused r => .refused r

/-- The register fields of an instruction, read off a word as its unsigned number (R52, R53). -/
def fieldRd (w : Word) : Nat := w.toNat / 64 % 8

/-- `rs1` of a format R word: bits 5 to 3 (R52). -/
def fieldRs1 (w : Word) : Nat := w.toNat / 8 % 8

/-- `rs2` of a format R word: bits 2 to 0 (R52). -/
def fieldRs2 (w : Word) : Nat := w.toNat % 8

/-- `rd` of a format I word: bits 12 to 10 (R53). -/
def fieldRdI (w : Word) : Nat := w.toNat / 1024 % 8

/-- The immediate of a format I word: bits 9 to 0 (R53). -/
def fieldImm (w : Word) : BitVec 10 := BitVec.ofNat 10 (w.toNat % 1024)

/-- Every register but `r` reads as before. -/
def State.sameRegistersBut (r : Reg) (s t : State) : Prop := ∀ q : Reg, q ≠ r → t.reg q = s.reg q

/-- Every register reads as before. -/
def State.sameRegisters (s t : State) : Prop := ∀ q : Reg, t.reg q = s.reg q

/-- Every data word reads as before, and so does every instruction word. -/
def State.sameMemory (s t : State) : Prop :=
  (∀ a : Nat, t.dmem.read a = s.dmem.read a) ∧ t.imem = s.imem

/-- The output stream, the diagnostics and the exchanges with the host are as before. -/
def State.sameStreams (s t : State) : Prop :=
  t.out = s.out ∧ t.diag = s.diag ∧ t.timeCalls = s.timeCalls ∧ t.suspendRequests = s.suspendRequests

/-- The run goes on as before: the status and the cycle count are unchanged. -/
def State.sameRun (s t : State) : Prop := t.status = s.status ∧ t.cycles = s.cycles

/-- `t` is `s` halted in status `st`: the status, and the records of R165, the notice and then the register dump (at every
kind of halt: the spec's reading C10, log entry 16). -/
def State.haltsAs (st : Status) (notice : Diag) (s t : State) : Prop :=
  t.status = st ∧ t.diag = s.diag ++ [notice, .registerDump t.x] ∧ t.cycles = s.cycles ∧ t.out = s.out ∧
    t.timeCalls = s.timeCalls ∧ t.suspendRequests = s.suspendRequests

/-- What every reachable state has: the data region in its canonical form and zero from relative address 32768 on
(R113), a program of at most 1024 words (R19), `pc` at most 1024 (R14), at most `MAX_CYCLES` cycles (R18), and, once
the run has stopped, the register dump as its last record (R165). -/
abbrev State.Inv (s : State) : Prop :=
  s.dmem.wf ∧ (∀ c ∈ s.dmem, c.1 < 32768) ∧ s.imem.length ≤ Config.maxInstr ∧ s.pc ≤ 1024 ∧
    s.cycles ≤ Config.maxCycles ∧ (s.status ≠ .running → s.diag.getLast? = some (.registerDump s.x))

/-- The register an instruction's write-back writes, its `rd` field, in the instructions that have one (R13). -/
def destination : Instr → Option Nat
  | .add rd _ _ => some rd
  | .sub rd _ _ => some rd
  | .mul rd _ _ => some rd
  | .div rd _ _ => some rd
  | .cmpEqual rd _ _ => some rd
  | .cmpNotEqual rd _ _ => some rd
  | .load rd _ _ => some rd
  | .store _ _ _ => none
  | .syscall _ _ _ => none
  | .jump _ _ => none
  | .jumpCond _ _ => none
  | .mov rd _ => some rd

/-- The number a text of digit codes 48 to 57 denotes (R115), for the statement about service 3. -/
def digitsValue (text : List Word) : Nat :=
  text.foldl (fun n c => 10 * n + (c.toNat - 48)) 0

end Sys2Proof.Machine
end

