-- ==== Sys2Proof/Certificates/Slice0/Obligations.lean ====
section
/-! DEFINITION. The statements for the provers, from the numbered rules of spec/. A decision the spec marks as its own
(92_eei_decisions.md) is named in the docstring of a statement that rests on it. -/

open Sys2Proof Sys2Proof.Machine

/-! ## Encoding -/

/-- Decoding the encoding of a well-formed instruction gives it back, and a word that decodes is the encoding of a
well-formed instruction: no bit of a word is dropped (30_encoding.md section 3, the spec's own inference R63). -/
def Obligations.DecodeEncodeAgree : Prop :=
  (∀ i : Instr, i.wellFormed → decode (encode i) = .ok i) ∧
    ∀ (w : Word) (i : Instr), decode w = .ok i → encode i = w ∧ i.wellFormed

/-- Words written out from the encoding tables decode to the instructions they stand for (95_test_vectors.md 2.1). -/
def Obligations.DecodeSpecWords : Prop :=
  decode 0x00CA#16 = .ok (.add 3 1 2) ∧ decode 0x02CA#16 = .ok (.sub 3 1 2) ∧
    decode 0x0954#16 = .ok (.cmpEqual 5 2 4) ∧ decode 0x1F60#16 = .ok (.load 5 4 0) ∧
    decode 0x200A#16 = .ok (.store 0 1 2) ∧ decode 0x7FFF#16 = .ok (.syscall 7 7 7) ∧
    decode 0x8004#16 = .ok (.jump 0 4#10) ∧ decode 0xA805#16 = .ok (.jumpCond 2 5#10) ∧
    decode 0xE7FF#16 = .ok (.mov 1 0x3FF#10) ∧ decode 0x6A5A#16 = .error (.unknownOpcodeFormatR 53#6) ∧
    decode 0xD2A5#16 = .error (.unknownOpcodeFormatI 2#2)

/-- R51, R53: bit 15 selects the format, and each field is the run of bits the format's table (R52, R53) gives it, read
as unsigned; the two opcode fields are separate number spaces, 0 being `add` in one and `jump` in the other. -/
def Obligations.FormatFieldPositions : Prop :=
  ∀ w : Word,
    (w.toNat < 0x8000 → ∃ (op : BitVec 6) (rd rs1 rs2 : BitVec 3), decodeRaw w = .r op rd rs1 rs2 ∧
      op.toNat = w.toNat / 512 ∧ rd.toNat = w.toNat / 64 % 8 ∧ rs1.toNat = w.toNat / 8 % 8 ∧
      rs2.toNat = w.toNat % 8 ∧ (op = 0#6 → decode w = .ok (.add rd.toNat rs1.toNat rs2.toNat))) ∧
    (0x8000 ≤ w.toNat → ∃ (op : BitVec 2) (rd : BitVec 3) (imm : BitVec 10), decodeRaw w = .i op rd imm ∧
      op.toNat = w.toNat / 8192 % 4 ∧ rd.toNat = w.toNat / 1024 % 8 ∧ imm.toNat = w.toNat % 1024 ∧
      (op = 0#2 → decode w = .ok (.jump rd.toNat imm)))

/-- The whole opcode map by mask and match, and every other word fails with its format's unknown-opcode error
(30_encoding.md section 4). -/
def Obligations.OpcodeMapIsComplete : Prop :=
  ∀ w : Word,
    (w &&& 0xFE00#16 = 0x0000#16 → decode w = .ok (.add (fieldRd w) (fieldRs1 w) (fieldRs2 w))) ∧
    (w &&& 0xFE00#16 = 0x0200#16 → decode w = .ok (.sub (fieldRd w) (fieldRs1 w) (fieldRs2 w))) ∧
    (w &&& 0xFE00#16 = 0x0400#16 → decode w = .ok (.mul (fieldRd w) (fieldRs1 w) (fieldRs2 w))) ∧
    (w &&& 0xFE00#16 = 0x0600#16 → decode w = .ok (.div (fieldRd w) (fieldRs1 w) (fieldRs2 w))) ∧
    (w &&& 0xFE00#16 = 0x0800#16 → decode w = .ok (.cmpEqual (fieldRd w) (fieldRs1 w) (fieldRs2 w))) ∧
    (w &&& 0xFE00#16 = 0x0A00#16 → decode w = .ok (.cmpNotEqual (fieldRd w) (fieldRs1 w) (fieldRs2 w))) ∧
    (w &&& 0xFE00#16 = 0x1E00#16 → decode w = .ok (.load (fieldRd w) (fieldRs1 w) (fieldRs2 w))) ∧
    (w &&& 0xFE00#16 = 0x2000#16 → decode w = .ok (.store (fieldRd w) (fieldRs1 w) (fieldRs2 w))) ∧
    (w &&& 0xFE00#16 = 0x7E00#16 → decode w = .ok (.syscall (fieldRd w) (fieldRs1 w) (fieldRs2 w))) ∧
    (w &&& 0xE000#16 = 0x8000#16 → decode w = .ok (.jump (fieldRdI w) (fieldImm w))) ∧
    (w &&& 0xE000#16 = 0xA000#16 → decode w = .ok (.jumpCond (fieldRdI w) (fieldImm w))) ∧
    (w &&& 0xE000#16 = 0xE000#16 → decode w = .ok (.mov (fieldRdI w) (fieldImm w))) ∧
    ((0x0C00 ≤ w.toNat ∧ w.toNat ≤ 0x1DFF) ∨ (0x2200 ≤ w.toNat ∧ w.toNat ≤ 0x7DFF) →
      decode w = .error (.unknownOpcodeFormatR (BitVec.ofNat 6 (w.toNat / 512)))) ∧
    (0xC000 ≤ w.toNat ∧ w.toNat ≤ 0xDFFF → decode w = .error (.unknownOpcodeFormatI 2#2))

/-- The two readings of the immediate: unsigned 0 to 1023, and sign-extended from bit 9, -512 to 511
(30_encoding.md section 2). -/
def Obligations.ImmediateReadings : Prop :=
  ∀ imm : BitVec 10,
    immU imm = imm.toNat ∧
    (imm.toNat < 512 → signed (immS imm) = imm.toNat) ∧
    (512 ≤ imm.toNat → signed (immS imm) = (imm.toNat : Int) - 1024)

/-- R64: a program file holds each word as two bytes, low byte first; a file of odd size is a load error, and any other
starts the run of its words. -/
def Obligations.ProgramFileLayout : Prop :=
  (∀ words : List Word,
    wordsOfBytes (words.flatMap fun w : Word => [w.setWidth 8, (w >>> 8).setWidth 8]) = some words) ∧
  ∀ bytes : List (BitVec 8), (wordsOfBytes bytes = none ↔ bytes.length % 2 = 1) ∧
    (bytes.length % 2 = 1 → State.startFile bytes = .error .loadFormatError) ∧
    ∀ words : List Word, wordsOfBytes bytes = some words → State.startFile bytes = State.start words

/-! ## The arithmetic and comparison instructions -/

/-- R91: `add` completes, writes to `x[rd]` the wrapped signed sum, the word whose number is the sum modulo 65536, moves
on, and changes nothing else. -/
def Obligations.AddResult : Prop :=
  ∀ (d a b : Reg) (s : State),
    decode (encR 0#6 d a b) = .ok (.add d a b) ∧ encR 0#6 d a b &&& 0xFE00#16 = 0x0000#16 ∧
    ∃ t, exec (.add d a b) s = .next t ∧ t.reg d = wrap16 (signed (s.reg a) + signed (s.reg b)) ∧
      ((t.reg d).toNat : Int) = (signed (s.reg a) + signed (s.reg b)) % 65536 ∧
      s.sameRegistersBut d t ∧ t.pc = s.pc + 1 ∧ s.sameMemory t ∧ s.sameStreams t ∧ s.sameRun t

/-- `sub` completes and writes the wrapped difference `x[rs1] - x[rs2]`; the operand order is the spec's decision D1
(log entry 10). -/
def Obligations.SubResult : Prop :=
  ∀ (d a b : Reg) (s : State),
    decode (encR 1#6 d a b) = .ok (.sub d a b) ∧ encR 1#6 d a b &&& 0xFE00#16 = 0x0200#16 ∧
    ∃ t, exec (.sub d a b) s = .next t ∧ t.reg d = wrap16 (signed (s.reg a) - signed (s.reg b)) ∧
      ((t.reg d).toNat : Int) = (signed (s.reg a) - signed (s.reg b)) % 65536 ∧
      s.sameRegistersBut d t ∧ t.pc = s.pc + 1 ∧ s.sameMemory t ∧ s.sameStreams t ∧ s.sameRun t

/-- R93: `mul` completes and writes the low 16 bits of the product, and changes nothing else. -/
def Obligations.MulResult : Prop :=
  ∀ (d a b : Reg) (s : State),
    decode (encR 2#6 d a b) = .ok (.mul d a b) ∧ encR 2#6 d a b &&& 0xFE00#16 = 0x0400#16 ∧
    ∃ t, exec (.mul d a b) s = .next t ∧ t.reg d = wrap16 (signed (s.reg a) * signed (s.reg b)) ∧
      ((t.reg d).toNat : Int) = (signed (s.reg a) * signed (s.reg b)) % 65536 ∧
      s.sameRegistersBut d t ∧ t.pc = s.pc + 1 ∧ s.sameMemory t ∧ s.sameStreams t ∧ s.sameRun t

/-- `div` by a non-zero divisor completes and writes the wrapped quotient rounded toward zero: `A = q * B + r` with
`|r| < |B|` and `r` zero or of the sign of `A`. Operand order and rounding are the spec's decisions D1 and D2
(log entries 10 and 11). -/
def Obligations.DivResult : Prop :=
  ∀ (d a b : Reg) (s : State), s.reg b ≠ 0#16 →
    ∃ t, exec (.div d a b) s = .next t ∧
      (∃ q r : Int, signed (s.reg a) = q * signed (s.reg b) + r ∧ r.natAbs < (signed (s.reg b)).natAbs ∧
        (r = 0 ∨ r.sign = (signed (s.reg a)).sign) ∧ t.reg d = wrap16 q ∧ ((t.reg d).toNat : Int) = q % 65536) ∧
      s.sameRegistersBut d t ∧ t.pc = s.pc + 1 ∧ s.sameMemory t ∧ s.sameStreams t ∧ s.sameRun t

/-- `div` by zero writes no register, `pc` moves on, and the run halts with DivisionByZero. That `rs2` is the divisor is
the spec's decision D1, and that `pc` moves on its decision D8 (log entries 10 and 14); the report's cycle number is its
decision D12 and the register dump its reading C10 (log entry 16). -/
def Obligations.DivByZeroHalts : Prop :=
  ∀ (d a b : Reg) (s : State), s.reg b = 0#16 →
    ∃ t, exec (.div d a b) s = .next t ∧
      s.haltsAs (.error .divisionByZero) (.errorReport s.cycles .divisionByZero) t ∧
      s.sameRegisters t ∧ s.sameMemory t ∧ t.pc = s.pc + 1

/-- R100: `cmp_equal` completes and writes 1 when the two words are equal, else 0, and changes nothing else. -/
def Obligations.CmpEqualResult : Prop :=
  ∀ (d a b : Reg) (s : State),
    decode (encR 4#6 d a b) = .ok (.cmpEqual d a b) ∧ encR 4#6 d a b &&& 0xFE00#16 = 0x0800#16 ∧
    ∃ t, exec (.cmpEqual d a b) s = .next t ∧ t.reg d = (if s.reg a = s.reg b then 1#16 else 0#16) ∧
      s.sameRegistersBut d t ∧ t.pc = s.pc + 1 ∧ s.sameMemory t ∧ s.sameStreams t ∧ s.sameRun t

/-- R101: `cmp_not_equal` completes and writes 1 when the two words differ, else 0, and changes nothing else. -/
def Obligations.CmpNotEqualResult : Prop :=
  ∀ (d a b : Reg) (s : State),
    decode (encR 5#6 d a b) = .ok (.cmpNotEqual d a b) ∧ encR 5#6 d a b &&& 0xFE00#16 = 0x0A00#16 ∧
    ∃ t, exec (.cmpNotEqual d a b) s = .next t ∧ t.reg d = (if s.reg a ≠ s.reg b then 1#16 else 0#16) ∧
      s.sameRegistersBut d t ∧ t.pc = s.pc + 1 ∧ s.sameMemory t ∧ s.sameStreams t ∧ s.sameRun t

/-! ## Load and store -/

/-- `load` from a non-negative address completes and writes the data word there to `x[rd]`. Fields and signed address
are the spec's decisions D3 and D5 (log entries 12 and 13). -/
def Obligations.LoadResult : Prop :=
  ∀ (d a b : Reg) (s : State), (s.reg a).toNat < 0x8000 →
    ∃ t, exec (.load d a b) s = .next t ∧ t.reg d = s.dmem.read (s.reg a).toNat ∧
      s.sameRegistersBut d t ∧ t.pc = s.pc + 1 ∧ s.sameMemory t ∧ s.sameStreams t ∧ s.sameRun t

/-- `store` to a non-negative address completes and writes `x[rs2]` to that data word; every other data word, every
instruction word and every register is unchanged. Fields and signed address are the spec's decisions D4 and D5 (log
entries 12 and 13). The premise of canonical form
is the model's own (log entry 1). -/
def Obligations.StoreResult : Prop :=
  ∀ (d a b : Reg) (s : State), s.dmem.wf → (s.reg a).toNat < 0x8000 →
    ∃ t, exec (.store d a b) s = .next t ∧ t.dmem.read (s.dataAddress a).toNat = s.reg b ∧
      (∀ n : Nat, n ≠ (s.dataAddress a).toNat → t.dmem.read n = s.dmem.read n) ∧
      (s.dataAddress a).toNat = (s.reg a).toNat ∧ t.imem = s.imem ∧
      s.sameRegisters t ∧ t.pc = s.pc + 1 ∧ s.sameStreams t ∧ s.sameRun t

/-- `load` and `store` with a negative address halt with InvalidDataAddress of the signed address: nothing is read,
written or stored and `pc` stays. It rests on the spec's decisions D3, D4, D5 and D8 (log entries 12, 13, 14); the report's
cycle number is its decision D12 and the register dump its reading C10 (log entry 16). -/
def Obligations.BadDataAddressHalts : Prop :=
  ∀ (d a b : Reg) (s : State), 0x8000 ≤ (s.reg a).toNat →
    ∃ t, exec (.load d a b) s = .next t ∧ exec (.store d a b) s = .next t ∧
      s.haltsAs (.error (.invalidDataAddress ((s.reg a).toNat - 65536)))
        (.errorReport s.cycles (.invalidDataAddress ((s.reg a).toNat - 65536))) t ∧
      s.sameRegisters t ∧ s.sameMemory t ∧ t.pc = s.pc

/-! ## Syscall -/

/-- R112: service 0 completes its cycle and then the run is terminated, with the notice and the register dump; no
register, no memory word and no output changes. -/
def Obligations.SyscallTerminate : Prop :=
  ∀ (d a b : Reg) (s : State), s.reg 0 = 0#16 →
    ∃ t, exec (.syscall d a b) s = .next t ∧ s.haltsAs .terminated .terminatedNotice t ∧
      s.sameRegisters t ∧ s.sameMemory t ∧ t.pc = s.pc + 1

/-- Service 1 on a terminated string appends its words, unchanged, to the output stream and changes nothing else.
Signed address and 16-bit codes are the spec's decisions D5 and D13 (log entries 13 and 15). -/
def Obligations.SyscallPrintString : Prop :=
  ∀ (d a b : Reg) (s : State) (text : List Word), s.reg 0 = 1#16 → (s.reg 1).toNat < 0x8000 →
    (∀ (i : Nat) (w : Word), text[i]? = some w → s.dmem.read ((s.reg 1).toNat + i) = w ∧ w ≠ 0#16) →
    s.dmem.read ((s.reg 1).toNat + text.length) = 0#16 → (s.reg 1).toNat + text.length < Config.dataWords →
    ∃ t, exec (.syscall d a b) s = .next t ∧ t.out = s.out ++ text ∧ t.diag = s.diag ∧
      t.timeCalls = s.timeCalls ∧ t.suspendRequests = s.suspendRequests ∧
      s.sameRegisters t ∧ s.sameMemory t ∧ t.pc = s.pc + 1 ∧ s.sameRun t

/-- Service 1 halts with SyscallFault: at once from a negative start address, and at relative address 64512 when no
zero word ends the string; the open parameter says whether the words scanned are in the output stream. It rests on the
spec's decisions D5, D8, D14, D15 and D26 (log entries 9, 13, 14 and 17); the report's cycle number is its decision D12
and the register dump its reading C10 (log entry 16). -/
def Obligations.SyscallPrintStringFaults : Prop :=
  ∀ (d a b : Reg) (s : State), s.reg 0 = 1#16 →
    (0x8000 ≤ (s.reg 1).toNat →
      ∃ t, exec (.syscall d a b) s = .next t ∧
        s.haltsAs (.error (.syscallFault ((s.reg 1).toNat - 65536)))
          (.errorReport s.cycles (.syscallFault ((s.reg 1).toNat - 65536))) t ∧
        s.sameRegisters t ∧ s.sameMemory t ∧ t.pc = s.pc + 1) ∧
    ((s.reg 1).toNat < 0x8000 →
      (∀ n : Nat, (s.reg 1).toNat ≤ n → n < Config.dataWords → s.dmem.read n ≠ 0#16) →
      ∃ t, exec (.syscall d a b) s = .next t ∧ t.status = .error (.syscallFault 64512) ∧
        t.out = s.out ++ (if Config.syscall1PartialOutput = .emitPrefix then
          (List.range (Config.dataWords - (s.reg 1).toNat)).map (fun k => s.dmem.read ((s.reg 1).toNat + k))
          else []) ∧
        s.sameRegisters t ∧ s.sameMemory t ∧ t.pc = s.pc + 1)

/-- From a state of the invariant, service 1 with a non-negative start address never faults: every data word from
relative address 32768 on is zero (44_syscall.md section 2, the spec's own inference in R113). It rests on the spec's
decisions D5 and D13 (log entries 13 and 15) and on the invariant, whose own choices `StepKeepsInvariant` names. -/
def Obligations.PrintStringFromValidStartCompletes : Prop :=
  ∀ (d a b : Reg) (s : State), s.Inv → s.reg 0 = 1#16 → (s.reg 1).toNat < 0x8000 →
    ∃ (t : State) (text : List Word), exec (.syscall d a b) s = .next t ∧ t.out = s.out ++ text ∧
      (s.reg 1).toNat + text.length ≤ 32768 ∧ (∀ w ∈ text, w ≠ 0#16) ∧ s.sameRun t ∧ t.pc = s.pc + 1

/-- Service 2 appends the code 10 to the output stream and changes nothing else. The code is the spec's decision D17
(log entry 15). -/
def Obligations.SyscallPrintNewline : Prop :=
  ∀ (d a b : Reg) (s : State), s.reg 0 = 2#16 →
    ∃ t, exec (.syscall d a b) s = .next t ∧ t.out = s.out ++ [10#16] ∧ t.diag = s.diag ∧
      t.timeCalls = s.timeCalls ∧ t.suspendRequests = s.suspendRequests ∧
      s.sameRegisters t ∧ s.sameMemory t ∧ t.pc = s.pc + 1 ∧ s.sameRun t

/-- Service 3 appends the shortest decimal numeral of `s(x[1])`: a minus sign (45) when negative, then digit codes 48
to 57 with no leading zero whose value is `|s(x[1])|`. The format is the spec's decision D16 (log entry 15). -/
def Obligations.SyscallPrintInteger : Prop :=
  ∀ (d a b : Reg) (s : State), s.reg 0 = 3#16 →
    ∃ (t : State) (digits : List Word), exec (.syscall d a b) s = .next t ∧
      t.out = s.out ++ ((if signed (s.reg 1) < 0 then [45#16] else []) ++ digits) ∧
      digits ≠ [] ∧ (∀ c ∈ digits, 48 ≤ c.toNat ∧ c.toNat ≤ 57) ∧
      digitsValue digits = (signed (s.reg 1)).natAbs ∧
      (digits.head? = some 48#16 → digits = [48#16]) ∧
      t.diag = s.diag ∧ t.timeCalls = s.timeCalls ∧ t.suspendRequests = s.suspendRequests ∧
      s.sameRegisters t ∧ s.sameMemory t ∧ t.pc = s.pc + 1 ∧ s.sameRun t

/-- Service 6 hands the host one request to suspend for `s(x[1])` seconds and changes no machine state but `pc`. The
record of requests is the model's own field (log entry 8; the spec's decision D18). -/
def Obligations.SyscallSleep : Prop :=
  ∀ (d a b : Reg) (s : State), s.reg 0 = 6#16 →
    ∃ t, exec (.syscall d a b) s = .next t ∧ t.suspendRequests = s.suspendRequests ++ [signed (s.reg 1)] ∧
      t.out = s.out ∧ t.diag = s.diag ∧ t.timeCalls = s.timeCalls ∧
      s.sameRegisters t ∧ s.sameMemory t ∧ t.pc = s.pc + 1 ∧ s.sameRun t

/-- Service 7 writes the host's next answer, a free value, to `x[1]` and changes no other machine state but `pc`; the
counter of answers, the model's own field, moves on (log entry 7; the spec's decision D19). -/
def Obligations.SyscallGetTime : Prop :=
  ∀ (d a b : Reg) (s : State), s.reg 0 = 7#16 →
    ∃ t, exec (.syscall d a b) s = .next t ∧ t.reg 1 = Config.timeNow s.timeCalls ∧ s.sameRegistersBut 1 t ∧
      t.timeCalls = s.timeCalls + 1 ∧ t.out = s.out ∧ t.diag = s.diag ∧
      t.suspendRequests = s.suspendRequests ∧ s.sameMemory t ∧ t.pc = s.pc + 1 ∧ s.sameRun t

/-- Every other selector records one diagnostic with the signed selector and changes nothing else but `pc`; the run
goes on. That the notice goes to `diag` is the spec's decision D20 (log entry 16). -/
def Obligations.SyscallUnimplemented : Prop :=
  ∀ (d a b : Reg) (s : State), s.reg 0 ∉ [0#16, 1#16, 2#16, 3#16, 6#16, 7#16] →
    ∃ t, exec (.syscall d a b) s = .next t ∧ t.diag = s.diag ++ [.unimplementedService (signed (s.reg 0))] ∧
      t.out = s.out ∧ t.timeCalls = s.timeCalls ∧ t.suspendRequests = s.suspendRequests ∧
      s.sameRegisters t ∧ s.sameMemory t ∧ t.pc = s.pc + 1 ∧ s.sameRun t

/-! ## Control transfer and move immediate -/

/-- `jump` completes, sets `pc` to the unsigned immediate, whatever its ignored `rd` field holds, and changes nothing
else; the field is still validated (45_control_transfer.md). That `rd` is ignored is the spec's decision D21 (log entry
19); that a term with an `rd` no word can hold is refused is the model's choice (log entry 20, the spec's decision
D29). -/
def Obligations.JumpResult : Prop :=
  ∀ (d : Reg) (imm : BitVec 10) (s : State),
    decode (encI 0#2 d imm) = .ok (.jump d imm) ∧ encI 0#2 d imm &&& 0xE000#16 = 0x8000#16 ∧
    (∃ t, exec (.jump d imm) s = .next t ∧ t.pc = imm.toNat ∧
      s.sameRegisters t ∧ s.sameMemory t ∧ s.sameStreams t ∧ s.sameRun t) ∧
    ∀ r : Nat, 8 ≤ r → ∃ t, exec (.jump r imm) s = .next t ∧ t.status = .error (.invalidRegisterIndex r)

/-- R126: `jump_cond` completes and jumps exactly when the condition register holds the value 1; it writes no register
and changes nothing else. -/
def Obligations.JumpCondResult : Prop :=
  ∀ (c : Reg) (imm : BitVec 10) (s : State),
    decode (encI 1#2 c imm) = .ok (.jumpCond c imm) ∧ encI 1#2 c imm &&& 0xE000#16 = 0xA000#16 ∧
    ∃ t, exec (.jumpCond c imm) s = .next t ∧
      t.pc = (if s.reg c = 0x0001#16 then imm.toNat else s.pc + 1) ∧
      s.sameRegisters t ∧ s.sameMemory t ∧ s.sameStreams t ∧ s.sameRun t

/-- R130: `mov` completes and loads the sign-extended immediate into `x[rd]`, `x[0]` like any other; it reads no
register and changes nothing else. -/
def Obligations.MovResult : Prop :=
  ∀ (d : Reg) (imm : BitVec 10) (s : State),
    decode (encI 3#2 d imm) = .ok (.mov d imm) ∧ encI 3#2 d imm &&& 0xE000#16 = 0xE000#16 ∧
    ∃ t, exec (.mov d imm) s = .next t ∧
      t.reg d = (if imm.toNat < 512 then BitVec.ofNat 16 imm.toNat else BitVec.ofNat 16 (imm.toNat + 0xFC00)) ∧
      s.sameRegistersBut d t ∧ t.pc = s.pc + 1 ∧ s.sameMemory t ∧ s.sameStreams t ∧ s.sameRun t

/-! ## Fields and validation -/

/-- The fields an instruction does not use do not change what it does: `rs2` of load, `rd` of store, all three of
syscall, `rd` of jump (30_encoding.md section 5; the spec's decision D21, log entry 19). -/
def Obligations.IgnoredFieldsDoNotMatter : Prop :=
  ∀ (d a b d' a' b' : Reg) (imm : BitVec 10) (s : State),
    exec (.load d a b) s = exec (.load d a b') s ∧ exec (.store d a b) s = exec (.store d' a b) s ∧
    exec (.syscall d a b) s = exec (.syscall d' a' b') s ∧ exec (.jump d imm) s = exec (.jump d' imm) s

/-- An instruction with a register field of 8 or more halts with InvalidRegisterIndex of its first such field before
any mutation. No word decodes to such an instruction; that the check is made on the term is the model's choice (log
entry 20; 40_cycle.md R74 is the check). That `pc` stays is the spec's decision D8 (log entry 14), the report's cycle
number its decision D12 and the register dump its reading C10 (log entry 16). -/
def Obligations.IllFormedInstructionHalts : Prop :=
  ∀ (i : Instr) (s : State), ¬ i.wellFormed →
    ∃ (j : Nat) (t : State), i.registerFields.find? (fun r => decide (8 ≤ r)) = some j ∧ exec i s = .next t ∧
      s.haltsAs (.error (.invalidRegisterIndex j)) (.errorReport s.cycles (.invalidRegisterIndex j)) t ∧
      s.sameRegisters t ∧ s.sameMemory t ∧ t.pc = s.pc

/-- `set` then `get` gives the word written, every other register keeps its word, and both fail for an index outside 0
to 7 (10_state.md section 2). -/
def Obligations.RegisterFileContract : Prop :=
  Config.numRegs = 8 ∧
  ∀ (x : RegFile) (i : Nat) (v : Word),
    (i < 8 → ∃ y, RegFile.set x i v = .ok y ∧ RegFile.get y i = .ok v ∧
      ∀ j : Nat, j ≠ i → RegFile.get y j = RegFile.get x j) ∧
    (8 ≤ i → RegFile.get x i = .error (.invalidRegisterIndex i) ∧
      RegFile.set x i v = .error (.invalidRegisterIndex i))

/-! ## The access primitives -/

/-- R35: `IFetch(a)` returns the word at index `a` for `0 <= a < N` and fails with InvalidInstructionAddress(a)
otherwise, whatever the integer. -/
def Obligations.InstructionFetchContract : Prop :=
  ∀ (s : State) (a : Int),
    (∀ n : Nat, ∀ h : n < s.imem.length, a = n → iFetch s a = .ok s.imem[n]) ∧
    ((a < 0 ∨ (s.imem.length : Int) ≤ a) → iFetch s a = .error (.invalidInstructionAddress a))

/-- A data access fails with InvalidDataAddress(a) exactly outside `0 <= a < 64512`; within, a write makes that word `v`
and no other word changes, and a read returns the word (20_memory.md section 2). The canonical form of the data region, as
a premise and as kept by the write, is the model's own (log entry 1). -/
def Obligations.DataAccessContract : Prop :=
  ∀ (m : Memory) (a : Int) (v : Word), m.wf →
    ((a < 0 ∨ 64512 ≤ a) → memRead m a = .error (.invalidDataAddress a) ∧
      memWrite m a v = .error (.invalidDataAddress a)) ∧
    (0 ≤ a → a < 64512 → memRead m a = .ok (m.read a.toNat) ∧
      ∃ m', memWrite m a v = .ok m' ∧ memRead m' a = .ok v ∧ m'.wf ∧
        ∀ a' : Int, a' ≠ a → memRead m' a' = memRead m a')

/-! ## Start -/

/-- `start` loads the words and leaves every piece of state at its reset value; more than 1024 words are refused
(70_reset_and_hazards.md section 1; the spec's decisions D6 and D23, log entries 2, 3 and 21). The two fields of the
model's own are not spoken of. -/
def Obligations.StartLoadsAndResets : Prop :=
  ∀ words : List Word,
    (words.length ≤ 1024 → ∃ s, State.start words = .ok s ∧ (∀ r : Reg, s.reg r = 0#16) ∧
      (∀ a : Nat, s.dmem.read a = 0#16) ∧ s.pc = 0 ∧ s.imem = words ∧ s.loadedCount = words.length ∧
      s.status = .running ∧ s.cycles = 0 ∧ s.out = [] ∧ s.diag = []) ∧
    (1024 < words.length → State.start words = .error .loadFormatError)

/-- The entry point is instruction address 0: the first cycle after `start` runs the first loaded word
(70_reset_and_hazards.md section 1). -/
def Obligations.FirstCycleRunsFirstWord : Prop :=
  ∀ (w : Word) (rest : List Word) (i : Instr) (s : State), State.start (w :: rest) = .ok s → decode w = .ok i →
    step s = exec i { s with cycles := 1 }

/-! ## The step and the run -/

/-- A step at a word that decodes runs the decoded instruction, in a cycle that is counted first. -/
def Obligations.StepRunsDecodedInstruction : Prop :=
  ∀ (s : State) (w : Word) (i : Instr), s.startsCycle → s.imem[s.pc]? = some w → decode w = .ok i →
    step s = exec i { s with cycles := s.cycles + 1 }

/-- A step at an illegal word halts with its format's unknown-opcode error and changes no register, memory word or
output; `pc` moves on, which is the spec's decisions D8 and D9 (log entry 14). The report's cycle number is its decision
D12 and the register dump its reading C10 (log entry 16). -/
def Obligations.IllegalWordHalts : Prop :=
  ∀ (s : State) (w : Word) (e : Err), s.startsCycle → s.imem[s.pc]? = some w →
    ((∃ k, decode w = .error (.unknownOpcodeFormatR k) ∧ e = .unknownOpcodeFormatR k) ∨
      ∃ k, decode w = .error (.unknownOpcodeFormatI k) ∧ e = .unknownOpcodeFormatI k) →
    ∃ t, step s = .next t ∧ ({ s with cycles := s.cycles + 1 } : State).haltsAs (.error e)
        (.errorReport (s.cycles + 1) e) t ∧
      s.sameRegisters t ∧ s.sameMemory t ∧ t.pc = s.pc + 1

/-- A fetch at or beyond `N` ends the cycle in step 1: the cycle is counted, the run halts with
InvalidInstructionAddress of `pc`, its report and the register dump, and registers, memory, output and `pc` are unchanged
(60_exceptions.md section 1). That `pc` stays is the spec's decision D8 (log entry 14); the report's cycle number is its
decision D12 and the dump its reading C10 (log entry 16). -/
def Obligations.FetchBeyondProgramHalts : Prop :=
  ∀ s : State, s.startsCycle → s.loadedCount ≤ s.pc →
    ∃ t, step s = .next t ∧ ({ s with cycles := s.cycles + 1 } : State).haltsAs
        (.error (.invalidInstructionAddress s.pc)) (.errorReport (s.cycles + 1) (.invalidInstructionAddress s.pc)) t ∧
      s.sameRegisters t ∧ s.sameMemory t ∧ t.pc = s.pc

/-- A running machine whose count is at the ceiling starts no cycle: the status becomes CeilingReached and `pc`,
registers, memory, output and count stay. The boundary is the spec's decision D11 (log entry 6), and the register dump its
reading C10 (log entry 16). -/
def Obligations.CeilingStopsTheRun : Prop :=
  ∀ s : State, s.status = .running → Config.maxCycles ≤ s.cycles →
    ∃ t, step s = .next t ∧ s.haltsAs .ceilingReached (.ceilingNotice s.cycles) t ∧
      s.sameRegisters t ∧ s.sameMemory t ∧ t.pc = s.pc

/-- A halted machine keeps its state under any number of steps. That a step of it answers the unchanged state is the
model's choice (log entry 4; 40_cycle.md R85 says that no state changes). -/
def Obligations.HaltedStateNeverChanges : Prop :=
  ∀ (s : State) (k : Nat), s.status ≠ .running → runSteps k s = .next s

/-- The records appended in the step that halts the run are the notice of that halt, then the register dump. That every
kind of halt dumps the registers is the spec's reading C10, and the cycle number reported its decision D12 (log entry
16). -/
def Obligations.HaltRecords : Prop :=
  ∀ s t : State, s.status = .running → step s = .next t →
    (∀ e, t.status = .error e → t.diag = s.diag ++ [.errorReport t.cycles e, .registerDump t.x]) ∧
    (t.status = .ceilingReached → t.diag = s.diag ++ [.ceilingNotice t.cycles, .registerDump t.x]) ∧
    (t.status = .terminated → t.diag = s.diag ++ [.terminatedNotice, .registerDump t.x])

/-- A step that ends in an error has written no register and no memory word; each error has its cause at `pc` and the
info its rule gives; fetch and data-address errors leave `pc`, the errors of the execute step leave `pc + 1`; and no step
raises InvalidRegisterIndex or LoadFormatError (60_exceptions.md sections 1 and 4). It rests on the spec's decisions D1,
D3, D4 (operand fields), D5 (signed address), D8 and D9 (`pc`), D15 and D26 (the scan's fault), D31 (the infos); log
entries 10, 12, 13, 14, 16 and 17. -/
def Obligations.ErrorsArePrecise : Prop :=
  ∀ (s t : State) (e : Err), s.status = .running → step s = .next t → t.status = .error e →
    s.sameRegisters t ∧ s.sameMemory t ∧
    match e with
    | .invalidInstructionAddress a => a = s.pc ∧ s.loadedCount ≤ s.pc ∧ t.pc = s.pc
    | .invalidRegisterIndex _ => False
    | .unknownOpcodeFormatR k => t.pc = s.pc + 1 ∧ ∃ w : Word, s.imem[s.pc]? = some w ∧
        decode w = .error (.unknownOpcodeFormatR k) ∧ k.toNat = w.toNat / 512
    | .unknownOpcodeFormatI k => t.pc = s.pc + 1 ∧ ∃ w : Word, s.imem[s.pc]? = some w ∧
        decode w = .error (.unknownOpcodeFormatI k) ∧ k.toNat = w.toNat / 8192 % 4 ∧ k = 2#2
    | .divisionByZero => t.pc = s.pc + 1 ∧ ∃ (w : Word) (d a b : Reg), s.imem[s.pc]? = some w ∧
        decode w = .ok (.div d a b) ∧ s.reg b = 0#16
    | .invalidDataAddress n => -32768 ≤ n ∧ n < 0 ∧ t.pc = s.pc ∧ ∃ (w : Word) (d a b : Reg),
        s.imem[s.pc]? = some w ∧ (decode w = .ok (.load d a b) ∨ decode w = .ok (.store d a b)) ∧
        n = s.dataAddress a
    | .syscallFault n => t.pc = s.pc + 1 ∧ s.reg 0 = 1#16 ∧
        ((n < 0 ∧ n = signed (s.reg 1)) ∨ (n = 64512 ∧ 0 ≤ signed (s.reg 1))) ∧
        ∃ (w : Word) (d a b : Reg), s.imem[s.pc]? = some w ∧ decode w = .ok (.syscall d a b)
    | .loadFormatError => False

/-- Every step answers a next state: nothing stops the machine outside its own status (log entry 5). That a halted
machine's step answers one at all is the model's choice (log entry 4; 40_cycle.md R85 gives it no step). -/
def Obligations.EveryStepAnswersNext : Prop :=
  ∀ s : State, ∃ t, step s = .next t

/-- Only a `store` changes a data word, and only the word its address register names, to the word of its value
register (20_memory.md section 6, point (c)). The field roles are the spec's decision D4 and the signed address its
decision D5 (log entries 12 and 13); the canonical form is the model's own (log entry 1). -/
def Obligations.OnlyStoreChangesData : Prop :=
  ∀ (s t : State) (n : Nat), s.dmem.wf → step s = .next t → t.dmem.read n ≠ s.dmem.read n →
    ∃ (w : Word) (d a b : Reg), s.imem[s.pc]? = some w ∧ decode w = .ok (.store d a b) ∧
      (n : Int) = signed (s.reg a) ∧ t.dmem.read n = s.reg b

/-- A register a step changes is the destination of the instruction at `pc`, or `x[1]` under service 7 (10_state.md
section 2). The destination fields rest on the spec's decisions D1 and D3 (log entries 10 and 12). -/
def Obligations.RegisterWritersAreTheTable : Prop :=
  ∀ (s t : State) (q : Reg), step s = .next t → t.reg q ≠ s.reg q →
    ∃ (w : Word) (i : Instr), s.imem[s.pc]? = some w ∧ decode w = .ok i ∧
      (destination i = some q.val ∨ ((∃ d a b, i = .syscall d a b) ∧ s.reg 0 = 7#16 ∧ q = 1))

/-- No run changes the instruction region (20_memory.md section 6: stores never change what a fetch reads). The steps a run
takes after its halt are the model's choice (log entry 4). -/
def Obligations.RunNeverChangesProgram : Prop :=
  ∀ (k : Nat) (s t : State), runSteps k s = .next t → t.imem = s.imem

/-- The output stream only grows, and only in a syscall of service 1, 2 or 3 (10_state.md section 8, 44_syscall.md
section 3). -/
def Obligations.OutputGrowsOnlyBySyscall : Prop :=
  ∀ s t : State, step s = .next t → ∃ text : List Word, t.out = s.out ++ text ∧
    (text ≠ [] → s.reg 0 ∈ [1#16, 2#16, 3#16] ∧
      ∃ (w : Word) (d a b : Reg), s.imem[s.pc]? = some w ∧ decode w = .ok (.syscall d a b))

/-- The output stream, the diagnostics and the suspend requests never influence a step: with other contents the same
step does the same and appends the same (10_state.md section 8). The record of suspend requests and a halted machine's
step are the model's own (log entries 8 and 4). -/
def Obligations.StreamsNeverInfluence : Prop :=
  ∀ (s t : State) (o : List Word) (g : List Diag) (p : List Int), step s = .next t →
    ∃ (o' : List Word) (g' : List Diag) (p' : List Int),
      t.out = s.out ++ o' ∧ t.diag = s.diag ++ g' ∧ t.suspendRequests = s.suspendRequests ++ p' ∧
      step { s with out := o, diag := g, suspendRequests := p } =
        .next { t with out := o ++ o', diag := g ++ g', suspendRequests := p ++ p' }

/-- Wall-clock time enters a step only through service 7: only a syscall with `x[0] = 7` draws an answer, one at a time,
and a step that draws none does the same whatever answers are to come (70_reset_and_hazards.md section 4; the counter is
the model's own field, log entry 7; a halted machine's step is its choice, log entry 4). -/
def Obligations.TimeEntersOnlyByGetTime : Prop :=
  (∀ s t : State, step s = .next t → t.timeCalls ≠ s.timeCalls →
    t.timeCalls = s.timeCalls + 1 ∧ s.reg 0 = 7#16 ∧
    ∃ (w : Word) (d a b : Reg), s.imem[s.pc]? = some w ∧ decode w = .ok (.syscall d a b)) ∧
  ∀ (s t : State) (n : Nat), step s = .next t → t.timeCalls = s.timeCalls →
    step { s with timeCalls := n } = .next { t with timeCalls := n }

/-- The invariant of the machine holds in the reset state and right after every start. The bound of 1024 loaded words is the
spec's decision D6 and the reset values its decision D23 (log entries 2, 3 and 21), the number `pc` its decision D7 (log
entry 18); the canonical form of the data region is the model's own (log entry 1). -/
def Obligations.InvariantAtStart : Prop :=
  State.reset.Inv ∧ ∀ (words : List Word) (s : State), State.start words = .ok s → s.Inv

/-- Every step keeps the invariant: canonical data region, zero from relative address 32768 on, at most 1024
instruction words, `pc` at most 1024, at most `MAX_CYCLES` cycles, the register dump last in a halted run. The canonical
form is the model's own (log entry 1), and so is a halted machine's step (log entry 4). The rest follows from the spec's
decisions D4 and D5 (which words a store reaches; log entries 12 and 13), D6 (log entries 2 and 21), D7 (log entry 18),
D11 (log entry 6), and its reading C10 for the dump (log entry 16). -/
def Obligations.StepKeepsInvariant : Prop :=
  ∀ s t : State, s.Inv → step s = .next t → t.Inv

/-- While the machine runs, each step is one cycle: a run of `k` steps that leaves it running has counted `k`
(70_reset_and_hazards.md section 4). -/
def Obligations.EachStepIsOneCycle : Prop :=
  ∀ (k : Nat) (s t : State), runSteps k s = .next t → t.status = .running →
    t.cycles = s.cycles + k

/-- Every run halts: from any state whose count is at most `MAX_CYCLES`, after the remaining cycles and one more step
the machine does not run (40_cycle.md section 2; the boundary is the spec's decision D11, log entry 6; the steps after an
earlier halt are the model's choice, log entry 4). -/
def Obligations.EveryRunHalts : Prop :=
  ∀ s : State, s.cycles ≤ Config.maxCycles →
    ∃ t : State, runSteps (Config.maxCycles - s.cycles + 1) s = .next t ∧ t.status ≠ .running

/-! ## Readings of words -/

/-- `s(v)` is the two's-complement reading of a word, `wrap16(z)` the word whose number is `z` modulo 65536, and the
wrapped sum, difference and product of two signed readings are those of the unsigned ones (00_scope.md section 5;
41_arithmetic.md section 1, the spec's own inference in R95). -/
def Obligations.WordReadings : Prop :=
  (∀ z : Int, ((wrap16 z).toNat : Int) = z % 65536) ∧
  ∀ v w : Word,
    (v.toNat < 0x8000 → signed v = v.toNat) ∧ (0x8000 ≤ v.toNat → signed v = (v.toNat : Int) - 65536) ∧
    (wrap16 (signed v + signed w)).toNat = (v.toNat + w.toNat) % 65536 ∧
    (wrap16 (signed v - signed w)).toNat = (v.toNat + (65536 - w.toNat)) % 65536 ∧
    (wrap16 (signed v * signed w)).toNat = v.toNat * w.toNat % 65536
end

