-- ==== Sys2Proof/Laws/Memory.lean ====
section
/-! SUPPORT. The data region: read after write, the canonical form and that every write keeps it, and that equal
memories are equal data. -/

namespace Sys2Proof.Machine

@[simp] theorem dataWords_eq : Config.dataWords = 64512 := rfl

@[simp] theorem numRegs_eq : Config.numRegs = 8 := rfl

@[simp] theorem maxInstr_eq : Config.maxInstr = 1024 := rfl

theorem maxCycles_eq : Config.maxCycles = 100000 := rfl

@[simp] theorem outsideDataRegion_iff (a : Int) : outsideDataRegion a = true ↔ a < 0 ∨ 64512 ≤ a := by
  simp [outsideDataRegion, absoluteAddress, Config.dataBase, Config.memWords]
  omega

@[simp] theorem outsideDataRegion_eq_false_iff (a : Int) : outsideDataRegion a = false ↔ 0 ≤ a ∧ a < 64512 := by
  rw [← Bool.not_eq_true, outsideDataRegion_iff]; omega

@[simp] theorem Memory.read_nil (a : Nat) : Memory.read [] a = 0#16 := rfl

theorem Memory.read_of_lt {m : Memory} {a : Nat} (h : ∀ c ∈ m, a < c.1) : m.read a = 0#16 := by
  induction m with
  | nil => rfl
  | cons c rest ih =>
    have hc := h c (by simp)
    simp [Memory.read, Nat.ne_of_gt hc, ih fun d hd => h d (by simp [hd])]

theorem Memory.read_of_mem {m : Memory} {a : Nat} {v : Word} (hm : m.Pairwise fun c d => c.1 < d.1)
    (h : (a, v) ∈ m) : m.read a = v := by
  induction m with
  | nil => simp at h
  | cons c rest ih =>
    obtain ⟨hlt, hrest⟩ := List.pairwise_cons.mp hm
    rcases List.mem_cons.mp h with rfl | h
    · simp [Memory.read]
    · simp [Memory.read, Nat.ne_of_lt (hlt _ h), ih hrest h]

/-- A read at an address that is not listed. -/
theorem Memory.read_of_not_listed {m : Memory} {a : Nat} (h : ∀ c ∈ m, c.1 ≠ a) : m.read a = 0#16 := by
  induction m with
  | nil => rfl
  | cons c rest ih => simp [Memory.read, h c (by simp), ih fun d hd => h d (by simp [hd])]

/-- A write leaves every other word alone. -/
theorem Memory.read_write_other (m : Memory) {a n : Nat} (v : Word) (h : n ≠ a) : (m.write a v).read n = m.read n := by
  induction m with
  | nil => by_cases hv : v = 0#16 <;> simp [Memory.write, Memory.read, hv, Ne.symm h]
  | cons c rest ih =>
    simp only [Memory.write]
    split_ifs with h1 h2 h3 h4
    · rfl
    · simp [Memory.read, Ne.symm h]
    · simp [Memory.read, h3 ▸ Ne.symm h]
    · simp [Memory.read, h3 ▸ Ne.symm h, Ne.symm h]
    · simp [Memory.read, ih]

/-- A read after a write to the same address gives the word written. -/
theorem Memory.read_write_same {m : Memory} (hm : m.Pairwise fun c d => c.1 < d.1) (a : Nat) (v : Word) :
    (m.write a v).read a = v := by
  induction m with
  | nil => by_cases hv : v = 0#16 <;> simp [Memory.write, Memory.read, hv]
  | cons c rest ih =>
    obtain ⟨hlt, hrest⟩ := List.pairwise_cons.mp hm
    have low (hac : a ≤ c.1) : Memory.read rest a = 0#16 :=
      Memory.read_of_lt fun d hd => lt_of_le_of_lt hac (hlt d hd)
    simp only [Memory.write]
    split_ifs with h1 h2 h3 h4
    · simp [Memory.read, Nat.ne_of_gt h1, low h1.le, h2]
    · simp [Memory.read]
    · rw [low h3.le, h4]
    · simp [Memory.read]
    · simp [Memory.read, Ne.symm h3, ih hrest]

/-- Where the cells of a written memory come from. -/
theorem Memory.mem_write {m : Memory} {a : Nat} {v : Word} {c : Nat × Word} (h : c ∈ m.write a v) :
    c ∈ m ∨ (c = (a, v) ∧ v ≠ 0#16) := by
  induction m with
  | nil =>
    by_cases hv : v = 0#16
    · simp [Memory.write, hv] at h
    · simp only [Memory.write, if_neg hv, List.mem_singleton] at h
      exact .inr ⟨h, hv⟩
  | cons d rest ih =>
    simp only [Memory.write] at h
    split_ifs at h with h1 h2 h3 h4
    · exact .inl h
    · rcases List.mem_cons.mp h with rfl | h
      · exact .inr ⟨rfl, h2⟩
      · exact .inl h
    · exact .inl (List.mem_cons_of_mem _ h)
    · rcases List.mem_cons.mp h with rfl | h
      · exact .inr ⟨rfl, h4⟩
      · exact .inl (List.mem_cons_of_mem _ h)
    · rcases List.mem_cons.mp h with rfl | h
      · exact .inl (by simp)
      · exact (ih h).imp_left (List.mem_cons_of_mem _)

theorem Memory.pairwise_write {m : Memory} (hm : m.Pairwise fun c d => c.1 < d.1) (a : Nat) (v : Word) :
    (m.write a v).Pairwise fun c d => c.1 < d.1 := by
  induction m with
  | nil => by_cases hv : v = 0#16 <;> simp [Memory.write, hv]
  | cons c rest ih =>
    obtain ⟨hlt, hrest⟩ := List.pairwise_cons.mp hm
    simp only [Memory.write]
    split_ifs with h1 h2 h3 h4
    · exact hm
    · refine List.pairwise_cons.mpr ⟨fun d hd => ?_, hm⟩
      rcases List.mem_cons.mp hd with rfl | hd
      · exact h1
      · exact lt_trans h1 (hlt d hd)
    · exact hrest
    · exact List.pairwise_cons.mpr ⟨fun d hd => h3 ▸ hlt d hd, hrest⟩
    · refine List.pairwise_cons.mpr ⟨fun d hd => ?_, ih hrest⟩
      rcases Memory.mem_write hd with hd | ⟨rfl, -⟩
      · exact hlt d hd
      · show c.1 < a
        omega

/-- A write in the data region keeps the canonical form. -/
theorem Memory.wf_write {m : Memory} (hm : m.wf) {a : Nat} (ha : a < Config.dataWords) (v : Word) :
    (m.write a v).wf := by
  refine ⟨Memory.pairwise_write hm.1 a v, fun c hc => ?_⟩
  rcases Memory.mem_write hc with hc | ⟨rfl, hv⟩
  · exact hm.2 c hc
  · exact ⟨hv, ha⟩

/-- The memory primitive keeps the canonical form. -/
theorem memWrite_wf {m m' : Memory} {a : Int} {v : Word} (hm : m.wf) (h : memWrite m a v = .ok m') : m'.wf := by
  unfold memWrite at h
  split at h
  · cases h
  · cases h
    exact Memory.wf_write hm (by simp_all) v

theorem reset_dmem_wf : State.reset.dmem.wf := by decide

/-- Equal memories are equal data: two canonical memories that read alike are the same list. -/
theorem Memory.ext_of_wf {m n : Memory} (hm : m.wf) (hn : n.wf) (h : ∀ a, m.read a = n.read a) : m = n := by
  have mem_of (p q : Memory) (hp : p.wf) (hq : q.wf) (h : ∀ a, p.read a = q.read a) (c : Nat × Word)
      (hc : c ∈ p) : c ∈ q := by
    have hv := (hp.2 c hc).1
    by_contra hnot
    have hread : q.read c.1 = c.2 := by rw [← h, Memory.read_of_mem hp.1 (v := c.2) hc]
    by_cases hlisted : ∃ d ∈ q, d.1 = c.1
    · obtain ⟨d, hd, hdc⟩ := hlisted
      have hd2 := Memory.read_of_mem hq.1 (a := c.1) (v := d.2) (by rw [← hdc]; exact hd)
      exact hnot (by rw [show c = d from Prod.ext hdc.symm (hread.symm.trans hd2)]; exact hd)
    · exact hv (by rw [← hread]; exact Memory.read_of_not_listed fun d hd e => hlisted ⟨d, hd, e⟩)
  have strict (p : Memory) (hp : p.wf) : p.Pairwise fun c d => c.1 < d.1 := hp.1
  refine List.Perm.eq_of_pairwise (le := fun c d : Nat × Word => c.1 < d.1) (fun a b _ _ h1 h2 => absurd h1 (Nat.lt_asymm h2)) hm.1 hn.1 ?_
  refine (List.perm_ext_iff_of_nodup ?_ ?_).mpr fun c => ⟨mem_of m n hm hn h c, mem_of n m hn hm (fun a => (h a).symm) c⟩
  · exact hm.1.imp fun hlt e => by simp [e] at hlt
  · exact hn.1.imp fun hlt e => by simp [e] at hlt

/-- Everything `MemRead` can answer (R36). -/
theorem memRead_cases (m : Memory) (a : Int) :
    (0 ≤ a ∧ a < 64512 ∧ memRead m a = .ok (m.read a.toNat)) ∨
      ((a < 0 ∨ 64512 ≤ a) ∧ memRead m a = .error (.invalidDataAddress a)) := by
  by_cases h : a < 0 ∨ 64512 ≤ a
  · exact .inr ⟨h, by simp [memRead, h]⟩
  · exact .inl ⟨by omega, by omega, by simp [memRead, h]⟩

/-- Everything `MemWrite` can answer (R37). -/
theorem memWrite_cases (m : Memory) (a : Int) (v : Word) :
    (0 ≤ a ∧ a < 64512 ∧ memWrite m a v = .ok (m.write a.toNat v)) ∨
      ((a < 0 ∨ 64512 ≤ a) ∧ memWrite m a v = .error (.invalidDataAddress a)) := by
  by_cases h : a < 0 ∨ 64512 ≤ a
  · exact .inr ⟨h, by simp [memWrite, h]⟩
  · exact .inl ⟨by omega, by omega, by simp [memWrite, h]⟩

end Sys2Proof.Machine
end

