-- ==== Sys2Proof/Laws/Operands.lean ====
section
/-! SUPPORT. The readings of words in arithmetic terms (00_scope.md R7; 41_arithmetic.md R94). -/

namespace Sys2Proof.Machine

theorem signed_eq_toInt (v : Word) : signed v = v.toInt := by
  simp only [signed, BitVec.toInt_eq_msb_cond, BitVec.msb_eq_getLsbD_last]
  rfl

theorem signed_of_lt {v : Word} (h : v.toNat < 0x8000) : signed v = v.toNat := by
  rw [signed_eq_toInt, BitVec.toInt_eq_toNat_of_lt (by omega)]

theorem signed_of_ge {v : Word} (h : 0x8000 ≤ v.toNat) : signed v = (v.toNat : Int) - 65536 := by
  rw [signed_eq_toInt, BitVec.toInt_eq_toNat_cond, if_neg (by omega)]
  rfl

theorem signed_bounds (v : Word) : -32768 ≤ signed v ∧ signed v ≤ 32767 := by
  have := v.isLt
  by_cases h : v.toNat < 0x8000
  · rw [signed_of_lt h]; omega
  · rw [signed_of_ge (by omega)]; omega

theorem signed_injective {v w : Word} (h : signed v = signed w) : v = w := by
  simpa [signed_eq_toInt, BitVec.toInt_inj] using h

theorem signed_eq_zero_iff {v : Word} : signed v = 0 ↔ v = 0#16 :=
  ⟨fun h => signed_injective (h.trans rfl), fun h => by rw [h]; rfl⟩

theorem wrap16_eq_ofInt (z : Int) : wrap16 z = BitVec.ofInt 16 z := by
  apply BitVec.eq_of_toNat_eq
  simp [wrap16]
  omega

/-- The number of a wrapped integer (R7). -/
theorem wrap16_toNat (z : Int) : ((wrap16 z).toNat : Int) = z % 65536 := by
  simp only [wrap16, BitVec.toNat_ofNat]
  omega

/-- A word is the wrapping of its own signed reading. -/
theorem wrap16_signed (v : Word) : wrap16 (signed v) = v := by
  rw [wrap16_eq_ofInt, signed_eq_toInt, BitVec.ofInt_toInt]

/-- The spec's quotient rounded toward zero is the library's. -/
theorem tdiv_eq (a b : Int) : tdiv a b = Int.tdiv a b := by
  rcases Int.eq_nat_or_neg a with ⟨m, rfl | rfl⟩ <;> rcases Int.eq_nat_or_neg b with ⟨n, rfl | rfl⟩ <;>
    rcases m.eq_zero_or_pos with rfl | hm <;> rcases n.eq_zero_or_pos with rfl | hn <;>
    simp_all [tdiv, Int.sign_eq_one_of_pos, Int.natAbs_neg]

theorem sext10_eq_signExtend (i : BitVec 10) : sext10 i = i.signExtend 16 := by
  revert i; decide +kernel

end Sys2Proof.Machine
end

