-- ==== Sys2Proof/Laws/State.lean ====
section
/-! SUPPORT. One lemma per field per update of the state: what the update leaves in the field. -/

namespace Sys2Proof.Machine

variable (s : State)

/-! ### `State.setReg` -/

@[simp] theorem State.setReg_x (r : Reg) (v : Word) : (s.setReg r v).x = Vector.set s.x r v := rfl
@[simp] theorem State.setReg_pc (r : Reg) (v : Word) : (s.setReg r v).pc = s.pc := rfl
@[simp] theorem State.setReg_imem (r : Reg) (v : Word) : (s.setReg r v).imem = s.imem := rfl
@[simp] theorem State.setReg_dmem (r : Reg) (v : Word) : (s.setReg r v).dmem = s.dmem := rfl
@[simp] theorem State.setReg_status (r : Reg) (v : Word) : (s.setReg r v).status = s.status := rfl
@[simp] theorem State.setReg_cycles (r : Reg) (v : Word) : (s.setReg r v).cycles = s.cycles := rfl
@[simp] theorem State.setReg_out (r : Reg) (v : Word) : (s.setReg r v).out = s.out := rfl
@[simp] theorem State.setReg_diag (r : Reg) (v : Word) : (s.setReg r v).diag = s.diag := rfl
@[simp] theorem State.setReg_timeCalls (r : Reg) (v : Word) : (s.setReg r v).timeCalls = s.timeCalls := rfl
@[simp] theorem State.setReg_suspendRequests (r : Reg) (v : Word) : (s.setReg r v).suspendRequests = s.suspendRequests := rfl

/-! ### `State.emit` -/

@[simp] theorem State.emit_x (text : List Word) : (s.emit text).x = s.x := rfl
@[simp] theorem State.emit_pc (text : List Word) : (s.emit text).pc = s.pc := rfl
@[simp] theorem State.emit_imem (text : List Word) : (s.emit text).imem = s.imem := rfl
@[simp] theorem State.emit_dmem (text : List Word) : (s.emit text).dmem = s.dmem := rfl
@[simp] theorem State.emit_status (text : List Word) : (s.emit text).status = s.status := rfl
@[simp] theorem State.emit_cycles (text : List Word) : (s.emit text).cycles = s.cycles := rfl
@[simp] theorem State.emit_out (text : List Word) : (s.emit text).out = s.out ++ text := rfl
@[simp] theorem State.emit_diag (text : List Word) : (s.emit text).diag = s.diag := rfl
@[simp] theorem State.emit_timeCalls (text : List Word) : (s.emit text).timeCalls = s.timeCalls := rfl
@[simp] theorem State.emit_suspendRequests (text : List Word) : (s.emit text).suspendRequests = s.suspendRequests := rfl

/-! ### `State.diagnose` -/

@[simp] theorem State.diagnose_x (records : List Diag) : (s.diagnose records).x = s.x := rfl
@[simp] theorem State.diagnose_pc (records : List Diag) : (s.diagnose records).pc = s.pc := rfl
@[simp] theorem State.diagnose_imem (records : List Diag) : (s.diagnose records).imem = s.imem := rfl
@[simp] theorem State.diagnose_dmem (records : List Diag) : (s.diagnose records).dmem = s.dmem := rfl
@[simp] theorem State.diagnose_status (records : List Diag) : (s.diagnose records).status = s.status := rfl
@[simp] theorem State.diagnose_cycles (records : List Diag) : (s.diagnose records).cycles = s.cycles := rfl
@[simp] theorem State.diagnose_out (records : List Diag) : (s.diagnose records).out = s.out := rfl
@[simp] theorem State.diagnose_diag (records : List Diag) : (s.diagnose records).diag = s.diag ++ records := rfl
@[simp] theorem State.diagnose_timeCalls (records : List Diag) : (s.diagnose records).timeCalls = s.timeCalls := rfl
@[simp] theorem State.diagnose_suspendRequests (records : List Diag) : (s.diagnose records).suspendRequests = s.suspendRequests := rfl

/-! ### `State.suspend` -/

@[simp] theorem State.suspend_x (v : Word) : (s.suspend v).x = s.x := rfl
@[simp] theorem State.suspend_pc (v : Word) : (s.suspend v).pc = s.pc := rfl
@[simp] theorem State.suspend_imem (v : Word) : (s.suspend v).imem = s.imem := rfl
@[simp] theorem State.suspend_dmem (v : Word) : (s.suspend v).dmem = s.dmem := rfl
@[simp] theorem State.suspend_status (v : Word) : (s.suspend v).status = s.status := rfl
@[simp] theorem State.suspend_cycles (v : Word) : (s.suspend v).cycles = s.cycles := rfl
@[simp] theorem State.suspend_out (v : Word) : (s.suspend v).out = s.out := rfl
@[simp] theorem State.suspend_diag (v : Word) : (s.suspend v).diag = s.diag := rfl
@[simp] theorem State.suspend_timeCalls (v : Word) : (s.suspend v).timeCalls = s.timeCalls := rfl
@[simp] theorem State.suspend_suspendRequests (v : Word) : (s.suspend v).suspendRequests = s.suspendRequests ++ [signed v] := rfl

/-! ### `State.drawTime` -/

@[simp] theorem State.drawTime_x : (s.drawTime).x = s.x := rfl
@[simp] theorem State.drawTime_pc : (s.drawTime).pc = s.pc := rfl
@[simp] theorem State.drawTime_imem : (s.drawTime).imem = s.imem := rfl
@[simp] theorem State.drawTime_dmem : (s.drawTime).dmem = s.dmem := rfl
@[simp] theorem State.drawTime_status : (s.drawTime).status = s.status := rfl
@[simp] theorem State.drawTime_cycles : (s.drawTime).cycles = s.cycles := rfl
@[simp] theorem State.drawTime_out : (s.drawTime).out = s.out := rfl
@[simp] theorem State.drawTime_diag : (s.drawTime).diag = s.diag := rfl
@[simp] theorem State.drawTime_timeCalls : (s.drawTime).timeCalls = s.timeCalls + 1 := rfl
@[simp] theorem State.drawTime_suspendRequests : (s.drawTime).suspendRequests = s.suspendRequests := rfl

/-! ### `State.halt` -/

@[simp] theorem State.halt_x (st : Status) (n : Diag) : (s.halt st n).x = s.x := rfl
@[simp] theorem State.halt_pc (st : Status) (n : Diag) : (s.halt st n).pc = s.pc := rfl
@[simp] theorem State.halt_imem (st : Status) (n : Diag) : (s.halt st n).imem = s.imem := rfl
@[simp] theorem State.halt_dmem (st : Status) (n : Diag) : (s.halt st n).dmem = s.dmem := rfl
@[simp] theorem State.halt_status (st : Status) (n : Diag) : (s.halt st n).status = st := rfl
@[simp] theorem State.halt_cycles (st : Status) (n : Diag) : (s.halt st n).cycles = s.cycles := rfl
@[simp] theorem State.halt_out (st : Status) (n : Diag) : (s.halt st n).out = s.out := rfl
@[simp] theorem State.halt_diag (st : Status) (n : Diag) : (s.halt st n).diag = s.diag ++ [n, .registerDump s.x] := rfl
@[simp] theorem State.halt_timeCalls (st : Status) (n : Diag) : (s.halt st n).timeCalls = s.timeCalls := rfl
@[simp] theorem State.halt_suspendRequests (st : Status) (n : Diag) : (s.halt st n).suspendRequests = s.suspendRequests := rfl

/-! ### `State.raise` -/

@[simp] theorem State.raise_x (e : Err) : (s.raise e).x = s.x := rfl
@[simp] theorem State.raise_pc (e : Err) : (s.raise e).pc = s.pc := rfl
@[simp] theorem State.raise_imem (e : Err) : (s.raise e).imem = s.imem := rfl
@[simp] theorem State.raise_dmem (e : Err) : (s.raise e).dmem = s.dmem := rfl
@[simp] theorem State.raise_status (e : Err) : (s.raise e).status = .error e := rfl
@[simp] theorem State.raise_cycles (e : Err) : (s.raise e).cycles = s.cycles := rfl
@[simp] theorem State.raise_out (e : Err) : (s.raise e).out = s.out := rfl
@[simp] theorem State.raise_diag (e : Err) : (s.raise e).diag = s.diag ++ [.errorReport s.cycles e, .registerDump s.x] := rfl
@[simp] theorem State.raise_timeCalls (e : Err) : (s.raise e).timeCalls = s.timeCalls := rfl
@[simp] theorem State.raise_suspendRequests (e : Err) : (s.raise e).suspendRequests = s.suspendRequests := rfl

/-! ### `State.finish` -/

@[simp] theorem State.finish_x : (s.finish).x = s.x := rfl
@[simp] theorem State.finish_pc : (s.finish).pc = s.pc := rfl
@[simp] theorem State.finish_imem : (s.finish).imem = s.imem := rfl
@[simp] theorem State.finish_dmem : (s.finish).dmem = s.dmem := rfl
@[simp] theorem State.finish_status : (s.finish).status = .terminated := rfl
@[simp] theorem State.finish_cycles : (s.finish).cycles = s.cycles := rfl
@[simp] theorem State.finish_out : (s.finish).out = s.out := rfl
@[simp] theorem State.finish_diag : (s.finish).diag = s.diag ++ [.terminatedNotice, .registerDump s.x] := rfl
@[simp] theorem State.finish_timeCalls : (s.finish).timeCalls = s.timeCalls := rfl
@[simp] theorem State.finish_suspendRequests : (s.finish).suspendRequests = s.suspendRequests := rfl

/-! ### `State.reachCeiling` -/

@[simp] theorem State.reachCeiling_x : (s.reachCeiling).x = s.x := rfl
@[simp] theorem State.reachCeiling_pc : (s.reachCeiling).pc = s.pc := rfl
@[simp] theorem State.reachCeiling_imem : (s.reachCeiling).imem = s.imem := rfl
@[simp] theorem State.reachCeiling_dmem : (s.reachCeiling).dmem = s.dmem := rfl
@[simp] theorem State.reachCeiling_status : (s.reachCeiling).status = .ceilingReached := rfl
@[simp] theorem State.reachCeiling_cycles : (s.reachCeiling).cycles = s.cycles := rfl
@[simp] theorem State.reachCeiling_out : (s.reachCeiling).out = s.out := rfl
@[simp] theorem State.reachCeiling_diag : (s.reachCeiling).diag = s.diag ++ [.ceilingNotice s.cycles, .registerDump s.x] := rfl
@[simp] theorem State.reachCeiling_timeCalls : (s.reachCeiling).timeCalls = s.timeCalls := rfl
@[simp] theorem State.reachCeiling_suspendRequests : (s.reachCeiling).suspendRequests = s.suspendRequests := rfl

/-! ### `State.countCycle` -/

@[simp] theorem State.countCycle_x : (s.countCycle).x = s.x := rfl
@[simp] theorem State.countCycle_pc : (s.countCycle).pc = s.pc := rfl
@[simp] theorem State.countCycle_imem : (s.countCycle).imem = s.imem := rfl
@[simp] theorem State.countCycle_dmem : (s.countCycle).dmem = s.dmem := rfl
@[simp] theorem State.countCycle_status : (s.countCycle).status = s.status := rfl
@[simp] theorem State.countCycle_cycles : (s.countCycle).cycles = s.cycles + 1 := rfl
@[simp] theorem State.countCycle_out : (s.countCycle).out = s.out := rfl
@[simp] theorem State.countCycle_diag : (s.countCycle).diag = s.diag := rfl
@[simp] theorem State.countCycle_timeCalls : (s.countCycle).timeCalls = s.timeCalls := rfl
@[simp] theorem State.countCycle_suspendRequests : (s.countCycle).suspendRequests = s.suspendRequests := rfl

/-! ### `State.withFetchWord` -/

@[simp] theorem State.withFetchWord_x (n w : Nat) : (s.withFetchWord n w).x = s.x := rfl
@[simp] theorem State.withFetchWord_pc (n w : Nat) : (s.withFetchWord n w).pc = s.pc := rfl
@[simp] theorem State.withFetchWord_imem (n w : Nat) : (s.withFetchWord n w).imem = placeWord s.imem s.pc (tableWord n w) := rfl
@[simp] theorem State.withFetchWord_dmem (n w : Nat) : (s.withFetchWord n w).dmem = s.dmem := rfl
@[simp] theorem State.withFetchWord_status (n w : Nat) : (s.withFetchWord n w).status = s.status := rfl
@[simp] theorem State.withFetchWord_cycles (n w : Nat) : (s.withFetchWord n w).cycles = s.cycles := rfl
@[simp] theorem State.withFetchWord_out (n w : Nat) : (s.withFetchWord n w).out = s.out := rfl
@[simp] theorem State.withFetchWord_diag (n w : Nat) : (s.withFetchWord n w).diag = s.diag := rfl
@[simp] theorem State.withFetchWord_timeCalls (n w : Nat) : (s.withFetchWord n w).timeCalls = s.timeCalls := rfl
@[simp] theorem State.withFetchWord_suspendRequests (n w : Nat) : (s.withFetchWord n w).suspendRequests = s.suspendRequests := rfl

/-! ### Readings of a state that only `x` decides -/

@[simp] theorem State.emit_reg (text : List Word) (r : Reg) : (s.emit text).reg r = s.reg r := rfl
@[simp] theorem State.diagnose_reg (records : List Diag) (r : Reg) : (s.diagnose records).reg r = s.reg r := rfl
@[simp] theorem State.suspend_reg (v : Word) (r : Reg) : (s.suspend v).reg r = s.reg r := rfl
@[simp] theorem State.drawTime_reg (r : Reg) : (s.drawTime).reg r = s.reg r := rfl
@[simp] theorem State.halt_reg (st : Status) (n : Diag) (r : Reg) : (s.halt st n).reg r = s.reg r := rfl
@[simp] theorem State.raise_reg (e : Err) (r : Reg) : (s.raise e).reg r = s.reg r := rfl
@[simp] theorem State.finish_reg (r : Reg) : (s.finish).reg r = s.reg r := rfl
@[simp] theorem State.reachCeiling_reg (r : Reg) : (s.reachCeiling).reg r = s.reg r := rfl
@[simp] theorem State.countCycle_reg (r : Reg) : (s.countCycle).reg r = s.reg r := rfl
@[simp] theorem State.withFetchWord_reg (n w : Nat) (r : Reg) : (s.withFetchWord n w).reg r = s.reg r := rfl

end Sys2Proof.Machine
end

