-- ==== Sys2Proof/Laws/Registers.lean ====
section
/-! SUPPORT. The register file: reads after writes, and the index check. -/

namespace Sys2Proof.Machine

@[simp] theorem State.reg_setReg_same (s : State) (r : Reg) (v : Word) : (s.setReg r v).reg r = v := by
  simp [State.reg, State.setReg]

theorem State.reg_setReg_other (s : State) (r q : Reg) (v : Word) (h : q ≠ r) :
    (s.setReg r v).reg q = s.reg q := by
  have : r.val ≠ q.val := fun e => h (Fin.ext e.symm)
  simp [State.reg, State.setReg, this]

/-- Two states with the same register readings have the same register file. -/
theorem State.x_ext {s t : State} (h : ∀ r : Reg, t.reg r = s.reg r) : t.x = s.x := by
  ext i hi
  have := congrArg BitVec.toNat (h ⟨i, hi⟩)
  simp only [State.reg, Fin.getElem_fin] at this
  rw [BitVec.eq_of_toNat_eq this]

@[simp] theorem checkIndex_reg (r : Reg) : checkIndex r = .ok r := by
  simp [checkIndex]

theorem checkIndex_of_ge {i : Nat} (h : 8 ≤ i) : checkIndex i = .error (.invalidRegisterIndex i) := by
  simp [checkIndex, Nat.not_lt.mpr h]

/-- Everything the check of an index can answer. -/
theorem checkIndex_cases (i : Nat) :
    (∃ r : Reg, r.val = i ∧ checkIndex i = .ok r) ∨
      (8 ≤ i ∧ checkIndex i = .error (.invalidRegisterIndex i)) := by
  by_cases h : i < 8
  · exact .inl ⟨⟨i, h⟩, rfl, by simp [checkIndex, h]⟩
  · exact .inr ⟨by omega, by simp [checkIndex, h]⟩

@[simp] theorem validateR_reg (d a b : Reg) : validateR d a b = .ok (d, a, b) := by
  simp [validateR]

/-- Everything the validate step of format R can answer: the three registers, or the error of the first bad field. -/
theorem validateR_cases (rd rs1 rs2 : Nat) :
    (∃ d a b : Reg, d.val = rd ∧ a.val = rs1 ∧ b.val = rs2 ∧ validateR rd rs1 rs2 = .ok (d, a, b)) ∨
      ∃ j, [rd, rs1, rs2].find? (fun r => decide (8 ≤ r)) = some j ∧
        validateR rd rs1 rs2 = .error (.invalidRegisterIndex j) := by
  rcases checkIndex_cases rd with ⟨d, rfl, hd⟩ | ⟨hrd, hd⟩
  · rcases checkIndex_cases rs1 with ⟨a, rfl, ha⟩ | ⟨hrs1, ha⟩
    · rcases checkIndex_cases rs2 with ⟨b, rfl, hb⟩ | ⟨hrs2, hb⟩
      · exact .inl ⟨d, a, b, rfl, rfl, rfl, by simp [validateR]⟩
      · exact .inr ⟨rs2, by simp [hrs2, List.find?, Nat.not_le.mpr d.isLt, Nat.not_le.mpr a.isLt], by simp [validateR, hb]⟩
    · exact .inr ⟨rs1, by simp [hrs1, List.find?, Nat.not_le.mpr d.isLt], by simp [validateR, ha]⟩
  · exact .inr ⟨rd, by simp [hrd, List.find?], by simp [validateR, hd]⟩

end Sys2Proof.Machine
end

