-- ==== Sys2Proof/Laws/Cycle.lean ====
section
/-! SUPPORT. The shared steps of a cycle: what steps 3 to 8 do with each shape of execution result. -/

namespace Sys2Proof.Machine

/-! ## Steps 5 to 8 on each shape of result -/

@[simp] theorem finishCycle_empty (s : State) : finishCycle s Result.empty = { s with pc := s.pc + 1 } := rfl

@[simp] theorem finishCycle_write (s : State) (r : Reg) (v : Word) :
    finishCycle s (Result.write r v) = { s.setReg r v with pc := s.pc + 1 } := rfl

@[simp] theorem finishCycle_fail (s : State) (e : Err) :
    finishCycle s (Result.fail e) = State.raise { s with pc := s.pc + 1 } e := rfl

@[simp] theorem finishCycle_terminate (s : State) :
    finishCycle s { Result.empty with terminate := true } = State.finish { s with pc := s.pc + 1 } := rfl

@[simp] theorem finishCycle_jump (s : State) (t : Nat) :
    finishCycle s { Result.empty with jump := some t } = { s with pc := t } := rfl

@[simp] theorem finishCycle_condJump (s : State) (c : Reg) (t : Nat) :
    finishCycle s { Result.empty with condJump := some (c, t) } =
      { s with pc := if conditionHolds (s.reg c) then t else s.pc + 1 } := rfl

/-- A read request fills the pending write, or ends the cycle in step 5. -/
theorem finishCycle_read (s : State) (d : Reg) (a : Int) :
    finishCycle s { Result.empty with mem := .read a, regWrite := some ⟨d, none⟩ } =
      match memRead s.dmem a with
      | .ok v => { s.setReg d v with pc := s.pc + 1 }
      | .error e => s.raise e := by
  simp only [finishCycle, accessMemory, Result.empty]
  cases memRead s.dmem a <;> rfl

/-- A write request changes the data region, or ends the cycle in step 5. -/
theorem finishCycle_store (s : State) (a : Int) (v : Word) :
    finishCycle s { Result.empty with mem := .write a v } =
      match memWrite s.dmem a v with
      | .ok m => { s with dmem := m, pc := s.pc + 1 }
      | .error e => s.raise e := by
  simp only [finishCycle, accessMemory, Result.empty]
  cases memWrite s.dmem a v <;> rfl

/-! ## Steps 3 to 8 -/

@[simp] theorem cycleR_reg (d a b : Reg) (f : Reg → Reg → Reg → State × Result) (s : State) :
    cycleR d a b f s = finishCycle (f d a b).1 (f d a b).2 := by
  simp [cycleR]

@[simp] theorem cycleI_reg (d : Reg) (f : Reg → State × Result) (s : State) :
    cycleI d f s = finishCycle (f d).1 (f d).2 := by
  simp [cycleI]

/-- Everything a format R cycle can do: execute with the three registers, or raise the error of the first bad field. -/
theorem cycleR_cases (rd rs1 rs2 : Nat) (f : Reg → Reg → Reg → State × Result) (s : State) :
    (∃ d a b : Reg, d.val = rd ∧ a.val = rs1 ∧ b.val = rs2 ∧
      cycleR rd rs1 rs2 f s = finishCycle (f d a b).1 (f d a b).2) ∨
    ∃ j, [rd, rs1, rs2].find? (fun r => decide (8 ≤ r)) = some j ∧
      cycleR rd rs1 rs2 f s = s.raise (.invalidRegisterIndex j) := by
  rcases validateR_cases rd rs1 rs2 with ⟨d, a, b, hd, ha, hb, h⟩ | ⟨j, hj, h⟩
  · exact .inl ⟨d, a, b, hd, ha, hb, by simp [cycleR, h]⟩
  · exact .inr ⟨j, hj, by simp [cycleR, h]⟩

/-- Everything a format I cycle can do. -/
theorem cycleI_cases (rd : Nat) (f : Reg → State × Result) (s : State) :
    (∃ d : Reg, d.val = rd ∧ cycleI rd f s = finishCycle (f d).1 (f d).2) ∨
    (8 ≤ rd ∧ cycleI rd f s = s.raise (.invalidRegisterIndex rd)) := by
  rcases checkIndex_cases rd with ⟨d, rfl, h⟩ | ⟨hj, h⟩
  · exact .inl ⟨d, rfl, by simp⟩
  · exact .inr ⟨hj, by simp [cycleI, h]⟩

/-- An illegal word's cycle: `pc` moves on and the unknown-opcode error is raised (R58, R153). -/
@[simp] theorem cycleIllegal_eq (raw : RawInstr) (e : DecodeError) (s : State) :
    cycleIllegal raw e s = State.raise { s with pc := s.pc + 1 } (Err.ofDecode e) := by
  have reg (v : BitVec 3) : ∃ r : Reg, v.toNat = r.val := ⟨⟨v.toNat, v.isLt⟩, rfl⟩
  rcases raw with ⟨_, rd, rs1, rs2⟩ | ⟨_, rd, _⟩
  · obtain ⟨d, hd⟩ := reg rd
    obtain ⟨a, ha⟩ := reg rs1
    obtain ⟨b, hb⟩ := reg rs2
    simp [cycleIllegal, hd, ha, hb]
  · obtain ⟨d, hd⟩ := reg rd
    simp [cycleIllegal, hd]

/-! ## Fetch -/

/-- The fetch step in terms of the instruction region alone (R35, R72). -/
theorem fetch_eq (s : State) :
    fetch s = match s.imem[s.pc]? with
      | some w => .ok w
      | none => .error (.invalidInstructionAddress s.pc) := by
  simp only [fetch, iFetch]
  rw [if_neg (by omega)]
  rfl

end Sys2Proof.Machine
end

