-- ==== Sys2Proof/Laws/PerInstr.lean ====
section
/-! SUPPORT. The families of statements about every instruction, one lemma per constructor. -/

namespace Sys2Proof.Laws

/-- The mask and the match of the instruction's row in spec/opcode_table.json (R56, R57). -/
def tableRow : Instr → Word × Word
  | .add _ _ _ => (0xFE00#16, 0x0000#16)
  | .sub _ _ _ => (0xFE00#16, 0x0200#16)
  | .mul _ _ _ => (0xFE00#16, 0x0400#16)
  | .div _ _ _ => (0xFE00#16, 0x0600#16)
  | .cmpEqual _ _ _ => (0xFE00#16, 0x0800#16)
  | .cmpNotEqual _ _ _ => (0xFE00#16, 0x0A00#16)
  | .load _ _ _ => (0xFE00#16, 0x1E00#16)
  | .store _ _ _ => (0xFE00#16, 0x2000#16)
  | .syscall _ _ _ => (0xFE00#16, 0x7E00#16)
  | .jump _ _ => (0xE000#16, 0x8000#16)
  | .jumpCond _ _ => (0xE000#16, 0xA000#16)
  | .mov _ _ => (0xE000#16, 0xE000#16)

/-- The encoding of the instruction, under its row's mask, is its row's match. -/
def EncodingMatchesTable.Statement (i : Instr) : Prop := encode i &&& (tableRow i).1 = (tableRow i).2

theorem encR_and_mask (op : BitVec 6) (rd rs1 rs2 : Nat) :
    encR op rd rs1 rs2 &&& 0xFE00#16 = op.setWidth 16 <<< 9 := by
  apply BitVec.eq_of_getLsbD_eq
  intro i hi
  simp only [encR, BitVec.getLsbD_and, BitVec.getLsbD_append, BitVec.getLsbD_shiftLeft, BitVec.getLsbD_setWidth]
  interval_cases i <;> simp

theorem encI_and_mask (op : BitVec 2) (rd : Nat) (imm : BitVec 10) :
    encI op rd imm &&& 0xE000#16 = 0x8000#16 ||| op.setWidth 16 <<< 13 := by
  apply BitVec.eq_of_getLsbD_eq
  intro i hi
  simp only [encI, BitVec.getLsbD_and, BitVec.getLsbD_or, BitVec.getLsbD_append, BitVec.getLsbD_shiftLeft,
    BitVec.getLsbD_setWidth]
  interval_cases i <;> simp

namespace EncodingMatchesTable

theorem add (rd rs1 rs2 : Nat) : Statement (.add rd rs1 rs2) := encR_and_mask 0#6 rd rs1 rs2

theorem sub (rd rs1 rs2 : Nat) : Statement (.sub rd rs1 rs2) := encR_and_mask 1#6 rd rs1 rs2

theorem mul (rd rs1 rs2 : Nat) : Statement (.mul rd rs1 rs2) := encR_and_mask 2#6 rd rs1 rs2

theorem div (rd rs1 rs2 : Nat) : Statement (.div rd rs1 rs2) := encR_and_mask 3#6 rd rs1 rs2

theorem cmpEqual (rd rs1 rs2 : Nat) : Statement (.cmpEqual rd rs1 rs2) := encR_and_mask 4#6 rd rs1 rs2

theorem cmpNotEqual (rd rs1 rs2 : Nat) : Statement (.cmpNotEqual rd rs1 rs2) := encR_and_mask 5#6 rd rs1 rs2

theorem load (rd rs1 rs2 : Nat) : Statement (.load rd rs1 rs2) := encR_and_mask 15#6 rd rs1 rs2

theorem store (rd rs1 rs2 : Nat) : Statement (.store rd rs1 rs2) := encR_and_mask 16#6 rd rs1 rs2

theorem syscall (rd rs1 rs2 : Nat) : Statement (.syscall rd rs1 rs2) := encR_and_mask 63#6 rd rs1 rs2

theorem jump (rd : Nat) (imm : BitVec 10) : Statement (.jump rd imm) := encI_and_mask 0#2 rd imm

theorem jumpCond (rd : Nat) (imm : BitVec 10) : Statement (.jumpCond rd imm) := encI_and_mask 1#2 rd imm

theorem mov (rd : Nat) (imm : BitVec 10) : Statement (.mov rd imm) := encI_and_mask 3#2 rd imm

end EncodingMatchesTable

end Sys2Proof.Laws
end

