-- ==== Sys2Proof/Laws/Step.lean ====
section
/-! SUPPORT. Inversion: everything a service, an instruction and a step can do, said once. -/

namespace Sys2Proof.Machine

/-! ## Services (44_syscall.md R121) -/

/-- What a scan that ends at a zero word, or leaves the region, has read. -/
theorem scanFrom_fault {m : Memory} {a b : Int} {text : List Word} (h : scanFrom m a = (text, some b)) :
    (b = a ∧ (a < 0 ∨ 64512 ≤ a) ∧ text = []) ∨ (0 ≤ a ∧ a < 64512 ∧ b = 64512) := by
  have scan (left k : Nat) : ∀ text, scanString m left k = (text, some b) → b = ((k + left : Nat) : Int) := by
    induction left generalizing k with
    | zero => intro text h; simp only [scanString, Prod.mk.injEq, Option.some.injEq] at h; omega
    | succ left ih =>
      intro text h
      simp only [scanString] at h
      split at h
      · simp at h
      · have := ih (k + 1) (scanString m left (k + 1)).1 (by rw [← (Prod.mk.inj h).2])
        omega
  unfold scanFrom at h
  split at h
  · rename_i hout
    simp only [Prod.mk.injEq, Option.some.injEq] at h
    exact .inl ⟨h.2.symm, by simpa using hout, h.1.symm⟩
  · rename_i hin
    have hin : 0 ≤ a ∧ a < 64512 := by simpa using hin
    have := scan _ _ _ h
    simp only [dataWords_eq] at this
    exact .inr ⟨hin.1, hin.2, by omega⟩

/-- Everything the execute step of a syscall can do: halt, append to a stream, hand over a request, draw the time, or
fault in the string scan. -/
theorem serviceOf_cases (s : State) :
    let r := serviceOf (s.regSigned 0) s
    (s.reg 0 = 0#16 ∧ r = (s, { Result.empty with terminate := true })) ∨
    (∃ text, s.reg 0 ∈ [1#16, 2#16, 3#16] ∧ r = (s.emit text, Result.empty)) ∨
    (∃ text a, s.reg 0 = 1#16 ∧ ((a < 0 ∧ a = s.dataAddress 1) ∨ (a = 64512 ∧ 0 ≤ s.dataAddress 1)) ∧
      r = (s.emit text, Result.fail (.syscallFault a))) ∨
    (s.reg 0 = 6#16 ∧ r = (s.suspend (s.reg 1), Result.empty)) ∨
    (s.reg 0 = 7#16 ∧ r = ((s.setReg 1 s.timeNow).drawTime, Result.empty)) ∨
    (s.reg 0 ∉ [0#16, 1#16, 2#16, 3#16, 6#16, 7#16] ∧
      r = (s.diagnose [.unimplementedService (s.regSigned 0)], Result.empty)) := by
  have sel (n : Int) (w : Word) (hw : signed w = n) : s.regSigned 0 = n ↔ s.reg 0 = w :=
    ⟨fun h => signed_injective (h.trans hw.symm), fun h => by rw [State.regSigned, h, hw]⟩
  have h0 := sel 0 0#16 rfl
  have h1 := sel 1 1#16 rfl
  have h2 := sel 2 2#16 rfl
  have h3 := sel 3 3#16 rfl
  have h6 := sel 6 6#16 rfl
  have h7 := sel 7 7#16 rfl
  simp only [serviceOf, h0, h1, h2, h3, h6, h7]
  by_cases c0 : s.reg 0 = 0#16
  · exact .inl ⟨c0, by simp [c0, serviceTerminate]⟩
  refine .inr ?_
  rw [if_neg c0]
  by_cases c1 : s.reg 0 = 1#16
  · rw [if_pos c1, servicePrintString]
    split
    · exact .inl ⟨_, by simp [c1], rfl⟩
    · rename_i text a h
      refine .inr (.inl ⟨_, a, c1, ?_, rfl⟩)
      have := signed_bounds (s.reg 1)
      rcases scanFrom_fault h with ⟨rfl, hb, -⟩ | ⟨h0, -, rfl⟩
      · exact .inl ⟨by simp only [State.dataAddress] at *; omega, rfl⟩
      · exact .inr ⟨rfl, h0⟩
  rw [if_neg c1]
  by_cases c2 : s.reg 0 = 2#16
  · exact .inl ⟨[10#16], by simp [c2], by simp [c2, servicePrintNewline]⟩
  rw [if_neg c2]
  by_cases c3 : s.reg 0 = 3#16
  · exact .inl ⟨decimal (s.regSigned 1), by simp [c3], by simp [c3, servicePrintInteger]⟩
  rw [if_neg c3]
  refine .inr (.inr ?_)
  by_cases c6 : s.reg 0 = 6#16
  · exact .inl ⟨c6, by simp [c6, serviceSleep]⟩
  rw [if_neg c6]
  by_cases c7 : s.reg 0 = 7#16
  · exact .inr (.inl ⟨c7, by simp [c7, serviceGetTime]⟩)
  rw [if_neg c7]
  exact .inr (.inr ⟨by simp [c0, c1, c2, c3, c6, c7], rfl⟩)

/-! ## Instructions -/

/-- Everything `exec` can do, by the shape of the change. -/
inductive Effect (i : Instr) (s : State) : State → Prop where
  /-- A register field names no register (R142). -/
  | badIndex (j : Nat) (h : i.registerFields.find? (fun r => decide (8 ≤ r)) = some j) :
      Effect i s (s.raise (.invalidRegisterIndex j))
  /-- One register is written, through write-back (R78). -/
  | write (d : Reg) (v : Word) (h : destination i = some d.val) :
      Effect i s { s.setReg d v with pc := s.pc + 1 }
  /-- Only `pc` changes: a jump target or the next instruction. -/
  | goto (p : Nat) (h : p ≤ 1023 ∨ p = s.pc + 1) (hi : (∃ r imm, i = .jump r imm) ∨ ∃ r imm, i = .jumpCond r imm) :
      Effect i s { s with pc := p }
  /-- A data word is stored (R37). -/
  | store (d a b : Reg) (h : i = .store d a b) (ha : 0 ≤ s.dataAddress a) :
      Effect i s { s with dmem := s.dmem.write (s.dataAddress a).toNat (s.reg b), pc := s.pc + 1 }
  /-- A data address is negative (R146). -/
  | badAddress (d a b : Reg) (h : i = .load d a b ∨ i = .store d a b) (ha : s.dataAddress a < 0) :
      Effect i s (s.raise (.invalidDataAddress (s.dataAddress a)))
  /-- The divisor is zero (R145). -/
  | divZero (d a b : Reg) (h : i = .div d a b) (hb : s.reg b = 0#16) :
      Effect i s (State.raise { s with pc := s.pc + 1 } .divisionByZero)
  /-- Service 0 (R112). -/
  | terminate (d a b : Reg) (h : i = .syscall d a b) (h0 : s.reg 0 = 0#16) :
      Effect i s (State.finish { s with pc := s.pc + 1 })
  /-- Services 1, 2, 3 (R113 to R115). -/
  | print (d a b : Reg) (text : List Word) (h : i = .syscall d a b) (h0 : s.reg 0 ∈ [1#16, 2#16, 3#16]) :
      Effect i s { s.emit text with pc := s.pc + 1 }
  /-- Service 1 faults (R120). -/
  | scanFault (d a b : Reg) (text : List Word) (n : Int) (h : i = .syscall d a b) (h0 : s.reg 0 = 1#16)
      (hn : (n < 0 ∧ n = s.dataAddress 1) ∨ (n = 64512 ∧ 0 ≤ s.dataAddress 1)) :
      Effect i s (State.raise { s.emit text with pc := s.pc + 1 } (.syscallFault n))
  /-- Service 6 (R117). -/
  | sleep (d a b : Reg) (h : i = .syscall d a b) (h0 : s.reg 0 = 6#16) :
      Effect i s { s.suspend (s.reg 1) with pc := s.pc + 1 }
  /-- Service 7 (R118). -/
  | getTime (d a b : Reg) (h : i = .syscall d a b) (h0 : s.reg 0 = 7#16) :
      Effect i s { (s.setReg 1 s.timeNow).drawTime with pc := s.pc + 1 }
  /-- Any other service (R119). -/
  | unimplemented (d a b : Reg) (h : i = .syscall d a b) (h0 : s.reg 0 ∉ [0#16, 1#16, 2#16, 3#16, 6#16, 7#16]) :
      Effect i s { s.diagnose [.unimplementedService (s.regSigned 0)] with pc := s.pc + 1 }

/-- A format R cycle has an effect if its execution has one for every three registers. -/
theorem Effect.of_cycleR {i : Instr} {s : State} {rd rs1 rs2 : Nat} {f : Reg → Reg → Reg → State × Result}
    (hi : i.registerFields = [rd, rs1, rs2])
    (h : ∀ d a b : Reg, d.val = rd → a.val = rs1 → b.val = rs2 → Effect i s (finishCycle (f d a b).1 (f d a b).2)) :
    Effect i s (cycleR rd rs1 rs2 f s) := by
  rcases cycleR_cases rd rs1 rs2 f s with ⟨d, a, b, hd, ha, hb, e⟩ | ⟨j, hj, e⟩
  · rw [e]; exact h d a b hd ha hb
  · rw [e]; exact .badIndex j (hi ▸ hj)

/-- A format I cycle has an effect if its execution has one for every register. -/
theorem Effect.of_cycleI {i : Instr} {s : State} {rd : Nat} {f : Reg → State × Result}
    (hi : i.registerFields = [rd]) (h : ∀ d : Reg, d.val = rd → Effect i s (finishCycle (f d).1 (f d).2)) :
    Effect i s (cycleI rd f s) := by
  rcases cycleI_cases rd f s with ⟨d, hd, e⟩ | ⟨hj, e⟩
  · rw [e]; exact h d hd
  · rw [e]; exact .badIndex rd (by simp [hi, hj])

theorem Effect.syscall {d a b : Reg} (s : State) :
    Effect (.syscall d a b) s (finishCycle (serviceOf (s.regSigned 0) s).1 (serviceOf (s.regSigned 0) s).2) := by
  rcases serviceOf_cases s with ⟨h, e⟩ | ⟨text, h, e⟩ | ⟨text, n, h, hn, e⟩ | ⟨h, e⟩ | ⟨h, e⟩ | ⟨h, e⟩ <;> rw [e]
  · exact .terminate d a b rfl h
  · exact .print d a b text rfl h
  · exact .scanFault d a b text n rfl h hn
  · exact .sleep d a b rfl h
  · exact .getTime d a b rfl h
  · exact .unimplemented d a b rfl h

theorem immU_le (imm : BitVec 10) : immU imm ≤ 1023 := by
  have := imm.isLt
  simp only [immU]
  omega

/-- Every instruction answers a next state, and the change is one of the effects. -/
theorem exec_effect (i : Instr) (s : State) : ∃ t, exec i s = .next t ∧ Effect i s t := by
  cases i with
  | add rd rs1 rs2 => exact ⟨_, rfl, .of_cycleR rfl fun d a b hd _ _ => .write d _ (by simp [destination, hd])⟩
  | sub rd rs1 rs2 => exact ⟨_, rfl, .of_cycleR rfl fun d a b hd _ _ => .write d _ (by simp [destination, hd])⟩
  | mul rd rs1 rs2 => exact ⟨_, rfl, .of_cycleR rfl fun d a b hd _ _ => .write d _ (by simp [destination, hd])⟩
  | cmpEqual rd rs1 rs2 => exact ⟨_, rfl, .of_cycleR rfl fun d a b hd _ _ => .write d _ (by simp [destination, hd])⟩
  | cmpNotEqual rd rs1 rs2 => exact ⟨_, rfl, .of_cycleR rfl fun d a b hd _ _ => .write d _ (by simp [destination, hd])⟩
  | div rd rs1 rs2 =>
    refine ⟨_, rfl, .of_cycleR rfl fun d a b hd ha hb => ?_⟩
    simp only [divResult]
    split_ifs with h
    · exact .divZero d a b (by rw [hd, ha, hb]) (signed_eq_zero_iff.mp h)
    · exact .write d _ (by simp [destination, hd])
  | load rd rs1 rs2 =>
    refine ⟨_, rfl, .of_cycleR rfl fun d a b hd ha hb => ?_⟩
    rw [loadResult, finishCycle_read]
    have := signed_bounds (s.reg a)
    rcases memRead_cases s.dmem (s.dataAddress a) with ⟨-, -, e⟩ | ⟨hout, e⟩ <;> rw [e]
    · exact .write d _ (by simp [destination, hd])
    · exact .badAddress d a b (.inl (by rw [hd, ha, hb])) (by simp only [State.dataAddress] at *; omega)
  | store rd rs1 rs2 =>
    refine ⟨_, rfl, .of_cycleR rfl fun d a b hd ha hb => ?_⟩
    rw [storeResult, finishCycle_store]
    have := signed_bounds (s.reg a)
    rcases memWrite_cases s.dmem (s.dataAddress a) (s.reg b) with ⟨h0, -, e⟩ | ⟨hout, e⟩ <;> rw [e]
    · exact .store d a b (by rw [hd, ha, hb]) h0
    · exact .badAddress d a b (.inr (by rw [hd, ha, hb])) (by simp only [State.dataAddress] at *; omega)
  | syscall rd rs1 rs2 =>
    refine ⟨_, rfl, .of_cycleR rfl fun d a b hd ha hb => ?_⟩
    rw [← hd, ← ha, ← hb]
    exact .syscall s
  | jump rd imm =>
    exact ⟨_, rfl, .of_cycleI rfl fun d hd => .goto _ (.inl (immU_le imm)) (.inl ⟨_, _, rfl⟩)⟩
  | jumpCond rd imm =>
    refine ⟨_, rfl, .of_cycleI rfl fun d hd => ?_⟩
    rw [finishCycle_condJump]
    refine .goto _ ?_ (.inr ⟨_, _, rfl⟩)
    split_ifs
    · exact .inl (immU_le imm)
    · exact .inr rfl
  | mov rd imm => exact ⟨_, rfl, .of_cycleI rfl fun d hd => .write d _ (by simp [destination, hd])⟩

/-- What `exec` answers has one of the effects. -/
theorem effect_of_exec {i : Instr} {s t : State} (h : exec i s = .next t) : Effect i s t := by
  obtain ⟨u, hu, he⟩ := exec_effect i s
  rw [h] at hu
  cases hu
  exact he

/-! ## Steps -/

theorem step_of_startsCycle {s : State} (hs : s.startsCycle) : step s = cycle s.countCycle := by
  have hc : ¬ ceilingReached s = true := by simp [ceilingReached, hs.2]
  simp only [step, hs.1, if_neg hc]

theorem step_of_halted {s : State} (hs : s.status ≠ .running) : step s = .next s := by
  cases h : s.status <;> simp_all [step]

theorem step_of_ceiling {s : State} (hs : s.status = .running) (hc : Config.maxCycles ≤ s.cycles) :
    step s = .next s.reachCeiling := by
  simp [step, hs, ceilingReached, hc]

/-- No step stops the machine outside its own status. -/
theorem step_next (s : State) : ∃ t, step s = .next t := by
  by_cases hr : s.status = .running
  · by_cases hc : Config.maxCycles ≤ s.cycles
    · exact ⟨_, step_of_ceiling hr hc⟩
    · rw [step_of_startsCycle ⟨hr, by omega⟩, cycle]
      split
      · exact ⟨_, rfl⟩
      · split
        · exact (exec_effect _ _).imp fun _ h => h.1
        · exact ⟨_, rfl⟩
  · exact ⟨s, step_of_halted hr⟩

/-- Everything a step of a running machine below the ceiling can do: run the decoded instruction, halt on an illegal
word, or halt on a bad fetch. -/
theorem step_cycle_cases {s t : State} (hs : s.startsCycle) (h : step s = .next t) :
    (∃ w i, s.imem[s.pc]? = some w ∧ decode w = .ok i ∧ Effect i s.countCycle t) ∨
    (∃ w e, s.imem[s.pc]? = some w ∧ decode w = .error e ∧
      t = State.raise { s.countCycle with pc := s.pc + 1 } (Err.ofDecode e)) ∨
    (s.imem[s.pc]? = none ∧ t = s.countCycle.raise (.invalidInstructionAddress s.pc)) := by
  simp only [step_of_startsCycle hs, cycle, fetch_eq, State.countCycle_imem, State.countCycle_pc] at h
  cases hw : s.imem[s.pc]? with
  | none =>
    simp only [hw] at h
    cases h
    exact .inr (.inr ⟨rfl, rfl⟩)
  | some w =>
    simp only [hw] at h
    cases hd : decode w with
    | ok i =>
      simp only [hd] at h
      exact .inl ⟨w, i, rfl, hd, effect_of_exec h⟩
    | error e =>
      simp only [hd, cycleIllegal_eq] at h
      cases h
      exact .inr (.inl ⟨w, e, rfl, hd, rfl⟩)

/-- Everything a step can do: nothing when halted, the ceiling, or a cycle. -/
theorem step_cases {s t : State} (h : step s = .next t) :
    (s.status ≠ .running ∧ t = s) ∨
    (s.status = .running ∧ Config.maxCycles ≤ s.cycles ∧ t = s.reachCeiling) ∨
    s.startsCycle := by
  by_cases hr : s.status = .running
  · by_cases hc : Config.maxCycles ≤ s.cycles
    · refine .inr (.inl ⟨hr, hc, ?_⟩)
      rw [step_of_ceiling hr hc] at h
      cases h
      rfl
    · exact .inr (.inr ⟨hr, by omega⟩)
  · refine .inl ⟨hr, ?_⟩
    rw [step_of_halted hr] at h
    cases h
    rfl

end Sys2Proof.Machine
end

