-- ==== Sys2Proof/Laws/Run.lean ====
section
/-! SUPPORT. Runs of many steps: one step at a time, and the induction over a run, said once. -/

namespace Sys2Proof.Machine

@[simp] theorem runSteps_zero (s : State) : runSteps 0 s = .next s := rfl

theorem runSteps_succ {s t : State} (h : step s = .next t) (k : Nat) : runSteps (k + 1) s = runSteps k t := by
  rw [runSteps, h]

/-- A run of one step more is a step and then the run. -/
theorem runSteps_succ_cases {k : Nat} {s u : State} (h : runSteps (k + 1) s = .next u) :
    ∃ t, step s = .next t ∧ runSteps k t = .next u := by
  rw [runSteps] at h
  split at h
  · exact ⟨_, ‹_›, h⟩
  · cases h
  · cases h

theorem core_run_of_step {M : Host.Core} {s t : M.State} (h : M.step s = .next t) (k : Nat) :
    Host.Core.run M (k + 1) s = Host.Core.run M k t := by
  rw [Host.Core.run, h]

/-- The statements' runs are the host's runs. -/
theorem runSteps_eq_run (k : Nat) (s : State) : runSteps k s = Host.Core.run Sys2Proof.core k s := by
  induction k generalizing s with
  | zero => rfl
  | succ k ih =>
    obtain ⟨t, ht⟩ := step_next s
    exact (runSteps_succ ht k).trans ((ih t).trans (core_run_of_step (M := Sys2Proof.core) ht k).symm)

/-- A relation that every step keeps, and that is reflexive and transitive, holds along every run. -/
theorem run_relation {R : State → State → Prop} (refl : ∀ s, R s s) (trans : ∀ s t u, R s t → R t u → R s u)
    (hstep : ∀ s t, step s = .next t → R s t) (k : Nat) (s t : State)
    (h : runSteps k s = .next t) : R s t := by
  induction k generalizing s with
  | zero => cases h; exact refl _
  | succ k ih =>
    obtain ⟨u, hu, hrun⟩ := runSteps_succ_cases h
    exact trans _ _ _ (hstep s u hu) (ih u hrun)

/-- A property that every step keeps holds along every run that starts with it. -/
theorem run_invariant {P : State → Prop} (hstep : ∀ s t, P s → step s = .next t → P t) (k : Nat) (s t : State)
    (hs : P s) (h : runSteps k s = .next t) : P t :=
  run_relation (R := fun s t => P s → P t) (fun _ h => h) (fun _ _ _ f g h => g (f h)) (fun s t e h => hstep s t h e)
    k s t h hs

end Sys2Proof.Machine
end

