-- ==== Sys2Proof/Tests/Slice0.lean ====
section
/-! SUPPORT. The model's own tests: the well-formedness smoke test, one decoding per constructor, single steps with
results from 95_test_vectors.md, and a witness for the hypotheses of every statement that has some. -/

namespace Sys2Proof.Tests

open Sys2Proof Sys2Proof.Machine

/-! ## Well-formedness: each check refuses a term that fails it -/

theorem test_wf_rd_r : Instr.wellFormed (.add 8 0 0) = false := by decide

theorem test_wf_rs1 : Instr.wellFormed (.store 0 8 0) = false := by decide

theorem test_wf_rs2 : Instr.wellFormed (.syscall 0 0 8) = false := by decide

theorem test_wf_rd_i : Instr.wellFormed (.mov 8 0#10) = false := by decide

theorem test_wf_accepts : Instr.wellFormed (.add 7 7 7) = true ∧ Instr.wellFormed (.mov 7 1023#10) = true := by decide

/-! ## Decoding: words written out from 30_encoding.md sections 1 to 3; the vectors of 95_test_vectors.md 2.1 to 2.7 -/

theorem test_decode_add : decode 0b0000000011001010#16 = .ok (.add 3 1 2) := by decide

theorem test_decode_sub : decode 0b0000001011001010#16 = .ok (.sub 3 1 2) := by decide

theorem test_decode_mul : decode 0b0000010011001010#16 = .ok (.mul 3 1 2) := by decide

theorem test_decode_div : decode 0b0000011011001010#16 = .ok (.div 3 1 2) := by decide

theorem test_decode_cmp_equal : decode 0b0000100011001010#16 = .ok (.cmpEqual 3 1 2) := by decide

theorem test_decode_cmp_not_equal : decode 0b0000101011001010#16 = .ok (.cmpNotEqual 3 1 2) := by decide

theorem test_decode_load : decode 0b0001111101100000#16 = .ok (.load 5 4 0) := by decide

theorem test_decode_store : decode 0b0010000000001010#16 = .ok (.store 0 1 2) := by decide

theorem test_decode_syscall : decode 0b0111111000000000#16 = .ok (.syscall 0 0 0) := by decide

theorem test_decode_jump : decode 0b1001110000000100#16 = .ok (.jump 7 4#10) := by decide

theorem test_decode_jump_cond : decode 0b1011010000001001#16 = .ok (.jumpCond 5 9#10) := by decide

theorem test_decode_mov : decode 0b1110100111111111#16 = .ok (.mov 2 511#10) := by decide

/-- The first and last words of the three illegal runs of 95_test_vectors.md 2.1. -/
theorem test_decode_illegal :
    decode 0x0C00#16 = .error (.unknownOpcodeFormatR 6#6) ∧ decode 0x1DFF#16 = .error (.unknownOpcodeFormatR 14#6) ∧
    decode 0x2200#16 = .error (.unknownOpcodeFormatR 17#6) ∧ decode 0x7DFF#16 = .error (.unknownOpcodeFormatR 62#6) ∧
    decode 0xC000#16 = .error (.unknownOpcodeFormatI 2#2) ∧ decode 0xDFFF#16 = .error (.unknownOpcodeFormatI 2#2) := by
  decide

/-- The encodings of R63 that 95_test_vectors.md 2.1 lists. -/
theorem test_encode :
    encode (.add 3 1 2) = 0x00CA#16 ∧ encode (.load 5 4 0) = 0x1F60#16 ∧ encode (.store 0 1 2) = 0x200A#16 ∧
    encode (.syscall 0 0 0) = 0x7E00#16 ∧ encode (.mov 1 65#10) = 0xE441#16 ∧ encode (.mov 1 0x3FF#10) = 0xE7FF#16 ∧
    encode (.jumpCond 2 5#10) = 0xA805#16 ∧ encode (.jump 0 4#10) = 0x8004#16 := by decide

/-- Vector S8: the odd file is refused, the even one holds its words low byte first. -/
theorem test_program_file :
    wordsOfBytes [0x41#8, 0xE4#8, 0x00#8] = none ∧
    wordsOfBytes [0x41#8, 0xE4#8, 0x00#8, 0x7E#8] = some [0xE441#16, 0x7E00#16] := by decide

theorem test_table_word : decodeTableWord 16 0x06CA = some (.div 3 1 2) ∧ decodeTableWord 16 0xC000 = none := by decide

/-! ## One step -/

/-- A running machine with `word` at `pc`, the registers and data words listed, everything else as at reset. -/
def machine (pc : Nat) (word : Word) (regs : List (Reg × Word)) (dmem : Memory) : State :=
  { State.reset with
    x := regs.foldl (fun x r => Vector.set x r.1 r.2) State.reset.x
    pc := pc
    imem := List.replicate pc 0#16 ++ [word]
    dmem := dmem }

/-- What `f` reads in the state after one step. -/
def look {α : Type} (s : State) (f : State → α) : Option α :=
  match step s with
  | .next t => some (f t)
  | _ => none

/-- `x[3]` and `pc` after one word at 0 that names `x[3]`, `x[1]`, `x[2]`, run with `x[1] = A` and `x[2] = B`. -/
def row (word A B : Word) : Option (Word × Nat) :=
  look (machine 0 word [(1, A), (2, B)] []) fun t => (t.reg 3, t.pc)

theorem test_add :
    row 0x00CA#16 0x7D00#16 0x03E8#16 = some (0x80E8#16, 1) ∧
    row 0x00CA#16 0x7FFF#16 0x0001#16 = some (0x8000#16, 1) ∧
    row 0x00CA#16 0x8000#16 0xFFFF#16 = some (0x7FFF#16, 1) ∧
    row 0x00CA#16 0xFED4#16 0x012C#16 = some (0x0000#16, 1) ∧
    row 0x00CA#16 0x8000#16 0x8000#16 = some (0x0000#16, 1) := by
  decide

theorem test_sub :
    row 0x02CA#16 0x0005#16 0x0007#16 = some (0xFFFE#16, 1) ∧
    row 0x02CA#16 0x8000#16 0xFFFF#16 = some (0x8001#16, 1) ∧
    row 0x02CA#16 0x8000#16 0x0001#16 = some (0x7FFF#16, 1) ∧
    row 0x02CA#16 0x7FFF#16 0x8000#16 = some (0xFFFF#16, 1) := by
  decide

theorem test_mul :
    row 0x04CA#16 0x012C#16 0x012C#16 = some (0x5F90#16, 1) ∧
    row 0x04CA#16 0xFED4#16 0x012C#16 = some (0xA070#16, 1) ∧
    row 0x04CA#16 0x0100#16 0x0100#16 = some (0x0000#16, 1) ∧
    row 0x04CA#16 0x00B6#16 0x00B6#16 = some (0x8164#16, 1) ∧
    row 0x04CA#16 0x3039#16 0xFFF9#16 = some (0xAE71#16, 1) := by
  decide

theorem test_div :
    row 0x06CA#16 0x7D00#16 0x03E8#16 = some (0x0020#16, 1) ∧
    row 0x06CA#16 0x8000#16 0xFFFF#16 = some (0x8000#16, 1) ∧
    row 0x06CA#16 0x0005#16 0x0007#16 = some (0x0000#16, 1) ∧
    row 0x06CA#16 0x3039#16 0xFFF9#16 = some (0xF91D#16, 1) ∧
    row 0x06CA#16 0xCFC7#16 0x0007#16 = some (0xF91D#16, 1) ∧
    row 0x06CA#16 0x7FFF#16 0x8000#16 = some (0x0000#16, 1) ∧
    row 0x06CA#16 0x8000#16 0x8000#16 = some (0x0001#16, 1) := by
  decide

/-- 95_test_vectors.md 2.2, division by zero in full. -/
theorem test_div_by_zero :
    look (machine 2 0x06CA#16 [(1, 0x0064#16), (3, 0x1234#16)] []) (fun t => (t.reg 3, t.pc, t.status)) =
      some (0x1234#16, 3, .error .divisionByZero) := by decide

/-- 95_test_vectors.md 2.2: the destination is also both sources. -/
theorem test_sub_same_register : look (machine 0 0x0249#16 [(1, 9#16)] []) (fun t => t.reg 1) = some 0#16 := by decide

theorem test_mul_same_register : look (machine 0 0x0449#16 [(1, 9#16)] []) (fun t => t.reg 1) = some 81#16 := by decide

theorem test_add_same_register : look (machine 0 0x0049#16 [(1, 21#16)] []) (fun t => t.reg 1) = some 42#16 := by decide

/-- 95_test_vectors.md 2.3. -/
theorem test_cmp_equal :
    row 0x08CA#16 0x0000#16 0x0000#16 = some (1#16, 1) ∧ row 0x08CA#16 0x0005#16 0x0007#16 = some (0#16, 1) ∧
    row 0x08CA#16 0xFFFF#16 0xFFFF#16 = some (1#16, 1) ∧ row 0x08CA#16 0x8000#16 0x7FFF#16 = some (0#16, 1) := by
  decide

theorem test_cmp_not_equal :
    row 0x0ACA#16 0x0000#16 0x0000#16 = some (0#16, 1) ∧ row 0x0ACA#16 0x0005#16 0x0007#16 = some (1#16, 1) ∧
    row 0x0ACA#16 0xFFFF#16 0xFFFF#16 = some (0#16, 1) ∧ row 0x0ACA#16 0x0001#16 0xFFFF#16 = some (1#16, 1) := by
  decide

/-- V-M7: the address is taken before the write of the same register. -/
theorem test_load : look (machine 0 0x1E48#16 [(1, 4#16)] [(4, 9#16)]) (fun t => (t.reg 1, t.pc)) = some (9#16, 1) := by
  decide

/-- V-M3. -/
theorem test_load_negative :
    look (machine 1 0x1E88#16 [(1, 0xFFFF#16), (2, 0x1111#16)] []) (fun t => (t.status, t.reg 2, t.pc)) =
      some (.error (.invalidDataAddress (-1)), 0x1111#16, 1) := by decide

/-- V-M5: the highest address a store reaches. -/
theorem test_store :
    look (machine 0 0x200A#16 [(1, 0x7FFF#16), (2, 0xBEEF#16)] [(3, 7#16)]) (fun t => (t.dmem, t.pc)) =
      some ([(3, 7#16), (32767, 0xBEEF#16)], 1) := by decide

/-- V-M4. -/
theorem test_store_negative :
    look (machine 1 0x2009#16 [(1, 0x8000#16)] []) (fun t => (t.status, t.dmem, t.pc)) =
      some (.error (.invalidDataAddress (-32768)), [], 1) := by decide

/-- V-S1 and V-S1c: codes are passed on unchanged. -/
theorem test_syscall_print_string :
    look (machine 0 0x7E00#16 [(0, 1#16)] [(0, 0x00E9#16), (1, 0x20AC#16)]) (fun t => (t.out, t.pc)) =
      some ([0x00E9#16, 0x20AC#16], 1) := by decide

/-- V-S3c and V-S9: print -32768, with the register fields of the word all set. -/
theorem test_syscall_print_integer :
    look (machine 0 0x7FFF#16 [(0, 3#16), (1, 0x8000#16)] []) (fun t => t.out) =
      some [0x2D#16, 0x33#16, 0x32#16, 0x37#16, 0x36#16, 0x38#16] := by decide

/-- V-J3: the jump uses the unsigned immediate. -/
theorem test_jump : look (machine 3 0x83FF#16 [] []) (fun t => t.pc) = some 1023 := by decide

/-- V-J9: the `rd` field is ignored. -/
theorem test_jump_ignores_rd : look (machine 3 0x9C04#16 [(7, 1#16)] []) (fun t => t.pc) = some 4 := by decide

/-- V-J8. -/
theorem test_jump_cond_taken :
    look (machine 7 0xB409#16 [(5, 1#16)] []) (fun t => (t.pc, t.reg 5)) = some (9, 1#16) := by decide

/-- V-J6: only the value 1 jumps. -/
theorem test_jump_cond_not_taken : look (machine 1 0xA805#16 [(2, 2#16)] []) (fun t => t.pc) = some 2 := by decide

/-- 95_test_vectors.md 2.7. -/
theorem test_mov_negative : look (machine 0 0xEA00#16 [] []) (fun t => t.reg 2) = some 0xFE00#16 := by decide

theorem test_mov_positive : look (machine 0 0xE9FF#16 [] []) (fun t => t.reg 2) = some 0x01FF#16 := by decide

/-- V-E1: nothing loaded. -/
theorem test_nothing_loaded :
    look State.reset (fun t => (t.status, t.pc, t.cycles)) = some (.error (.invalidInstructionAddress 0), 0, 1) := by
  decide

/-- V-E3 and V-E4. -/
theorem test_illegal_words :
    look (machine 0 0x0C00#16 [] []) (fun t => (t.status, t.pc)) = some (.error (.unknownOpcodeFormatR 6#6), 1) ∧
    look (machine 0 0xC000#16 [] []) (fun t => (t.status, t.pc)) = some (.error (.unknownOpcodeFormatI 2#2), 1) := by
  decide

/-- The host's placement of a word runs exactly it as the first instruction. -/
theorem test_with_fetch_word :
    look (State.reset.withFetchWord 16 0xE441) (fun t => (t.reg 1, t.pc, t.cycles)) = some (0x41#16, 1, 1) := by decide

/-! ## Witnesses: states and operands that meet the hypotheses of the statements -/

theorem witness_DecodeEncodeAgree : Instr.wellFormed (.store 7 7 7) ∧ decode 0xFFFF#16 = .ok (.mov 7 1023#10) := by decide

/-- Both formats at both ends of their range. -/
theorem witness_FormatFieldPositions :
    (0x0000#16).toNat < 0x8000 ∧ (0x7FFF#16).toNat < 0x8000 ∧ decodeRaw 0x7FFF#16 = .r 63#6 7#3 7#3 7#3 ∧
    0x8000 ≤ (0x8000#16).toNat ∧ 0x8000 ≤ (0xFFFF#16).toNat ∧ decodeRaw 0x8000#16 = .i 0#2 0#3 0#10 := by decide

/-- The smallest odd file, and the empty one. -/
theorem witness_ProgramFileLayout : [0x41#8].length % 2 = 1 ∧ wordsOfBytes [0x41#8] = none ∧ wordsOfBytes [] = some [] := by
  decide

/-- V-E5 from its file: the run starts with the file's word loaded. -/
theorem test_start_file : State.startFile [0x00#8, 0x7E#8] = .ok (machine 0 0x7E00#16 [] []) := by decide

/-- The smallest `rd` that names no register. -/
theorem witness_JumpResult :
    ∃ t, exec (.jump 8 4#10) State.reset = .next t ∧ t.status = .error (.invalidRegisterIndex 8) := ⟨_, rfl, rfl⟩

/-- The last word of each row of the map, and the ends of the illegal runs (`test_decode_illegal` decodes those). -/
theorem witness_OpcodeMapIsComplete :
    0x01FF#16 &&& 0xFE00#16 = 0x0000#16 ∧ 0x03FF#16 &&& 0xFE00#16 = 0x0200#16 ∧ 0x05FF#16 &&& 0xFE00#16 = 0x0400#16 ∧
    0x07FF#16 &&& 0xFE00#16 = 0x0600#16 ∧ 0x09FF#16 &&& 0xFE00#16 = 0x0800#16 ∧ 0x0BFF#16 &&& 0xFE00#16 = 0x0A00#16 ∧
    0x1FFF#16 &&& 0xFE00#16 = 0x1E00#16 ∧ 0x21FF#16 &&& 0xFE00#16 = 0x2000#16 ∧ 0x7FFF#16 &&& 0xFE00#16 = 0x7E00#16 ∧
    0x9FFF#16 &&& 0xE000#16 = 0x8000#16 ∧ 0xBFFF#16 &&& 0xE000#16 = 0xA000#16 ∧ 0xFFFF#16 &&& 0xE000#16 = 0xE000#16 ∧
    (0x0C00 ≤ (0x0C00#16).toNat ∧ (0x1DFF#16).toNat ≤ 0x1DFF) ∧ (0x2200 ≤ (0x2200#16).toNat ∧ (0x7DFF#16).toNat ≤ 0x7DFF) ∧
    (0xC000 ≤ (0xC000#16).toNat ∧ (0xDFFF#16).toNat ≤ 0xDFFF) := by decide

theorem witness_ImmediateReadings :
    (511#10).toNat < 512 ∧ signed (immS 511#10) = 511 ∧ 512 ≤ (512#10).toNat ∧ signed (immS 512#10) = -512 ∧
    signed (immS 1023#10) = -1 := by decide

theorem witness_DivResult :
    (machine 0 0x06CA#16 [(1, 0x8000#16), (2, 0xFFFF#16)] []).reg 2 ≠ 0#16 := by decide

theorem witness_DivByZeroHalts : (machine 0 0x06CA#16 [(1, 0x0064#16)] []).reg 2 = 0#16 := by decide

theorem witness_LoadResult : ((machine 0 0x1E88#16 [(1, 0x7FFF#16)] []).reg 1).toNat < 0x8000 := by decide

theorem witness_StoreResult :
    (machine 0 0x200A#16 [(1, 0x7FFF#16)] [(3, 7#16)]).dmem.wf ∧
    ((machine 0 0x200A#16 [(1, 0x7FFF#16)] [(3, 7#16)]).reg 1).toNat < 0x8000 := by decide

theorem witness_BadDataAddressHalts : 0x8000 ≤ ((machine 0 0x1E88#16 [(1, 0x8000#16)] []).reg 1).toNat := by decide

/-- The selectors of the services and of two unimplemented ones. -/
theorem witness_SyscallSelectors :
    (machine 0 0x7E00#16 [] []).reg 0 = 0#16 ∧ (machine 0 0x7E00#16 [(0, 2#16)] []).reg 0 = 2#16 ∧
    (machine 0 0x7E00#16 [(0, 3#16)] []).reg 0 = 3#16 ∧ (machine 0 0x7E00#16 [(0, 6#16)] []).reg 0 = 6#16 ∧
    (machine 0 0x7E00#16 [(0, 7#16)] []).reg 0 = 7#16 ∧
    (machine 0 0x7E00#16 [(0, 4#16)] []).reg 0 ∉ [0#16, 1#16, 2#16, 3#16, 6#16, 7#16] ∧
    (machine 0 0x7E00#16 [(0, 0xFFFF#16)] []).reg 0 ∉ [0#16, 1#16, 2#16, 3#16, 6#16, 7#16] := by decide

/-- V-S1: the text "Hi" from address 0. -/
abbrev hiMachine : State := machine 0 0x7E00#16 [(0, 1#16)] [(0, 0x48#16), (1, 0x69#16)]

theorem witness_SyscallPrintString :
    hiMachine.reg 0 = 1#16 ∧ (hiMachine.reg 1).toNat < 0x8000 ∧
    (∀ (i : Nat) (w : Word), [0x48#16, 0x69#16][i]? = some w → hiMachine.dmem.read ((hiMachine.reg 1).toNat + i) = w ∧
      w ≠ 0#16) ∧
    hiMachine.dmem.read ((hiMachine.reg 1).toNat + [0x48#16, 0x69#16].length) = 0#16 ∧
    (hiMachine.reg 1).toNat + [0x48#16, 0x69#16].length < Config.dataWords := by
  refine ⟨by decide, by decide, fun i w h => ?_, by decide, by decide⟩
  match i, h with
  | 0, h => cases h; decide
  | 1, h => cases h; decide
  | n + 2, h => simp at h

/-- The lowest negative start address, and that of V-S1b. -/
theorem witness_SyscallPrintStringFaults_negative :
    (machine 0 0x7E00#16 [(0, 1#16), (1, 0x8000#16)] []).reg 0 = 1#16 ∧
    0x8000 ≤ ((machine 0 0x7E00#16 [(0, 1#16), (1, 0x8000#16)] []).reg 1).toNat ∧
    0x8000 ≤ ((machine 0 0x7E00#16 [(0, 1#16), (1, 0xFFFB#16)] []).reg 1).toNat := by decide

/-- A data region with no zero word. -/
def fullMemory : Memory := (List.range Config.dataWords).map fun a => (a, 1#16)

theorem read_fullMemory {n : Nat} (h : n < Config.dataWords) : fullMemory.read n = 1#16 :=
  Memory.read_of_mem (List.pairwise_map.mpr List.pairwise_lt_range) (List.mem_map.mpr ⟨n, List.mem_range.mpr h, rfl⟩)

/-- A string that starts at the highest address `x[1]` can name and has no end. -/
abbrev unterminated : State := machine 0 0x7E00#16 [(0, 1#16), (1, 0x7FFF#16)] fullMemory

theorem witness_SyscallPrintStringFaults_unterminated :
    unterminated.reg 0 = 1#16 ∧ (unterminated.reg 1).toNat < 0x8000 ∧
    ∀ n : Nat, (unterminated.reg 1).toNat ≤ n → n < Config.dataWords → unterminated.dmem.read n ≠ 0#16 := by
  have start : unterminated.reg 1 = 0x7FFF#16 := rfl
  have region : unterminated.dmem = fullMemory := by rw [unterminated, machine]
  refine ⟨rfl, by rw [start]; decide, ?_⟩
  rw [start, region]
  intro n _ h e
  have word := read_fullMemory h
  rw [e] at word
  exact absurd word (by decide)

theorem witness_PrintStringFromValidStartCompletes :
    hiMachine.Inv ∧ hiMachine.reg 0 = 1#16 ∧ (hiMachine.reg 1).toNat < 0x8000 := by decide

theorem witness_IllFormedInstructionHalts : ¬ Instr.wellFormed (.load 0 8 9) := by decide

theorem witness_RegisterFileContract :
    RegFile.get State.reset.x 7 = .ok 0#16 ∧ RegFile.get State.reset.x 8 = .error (.invalidRegisterIndex 8) := by decide

/-- The first word, the address below it and the address `N`. -/
theorem witness_InstructionFetchContract :
    iFetch (machine 0 0x7E00#16 [] []) 0 = .ok 0x7E00#16 ∧
    iFetch (machine 0 0x7E00#16 [] []) (-1) = .error (.invalidInstructionAddress (-1)) ∧
    iFetch (machine 0 0x7E00#16 [] []) 1 = .error (.invalidInstructionAddress 1) := by decide

/-- Both ends of the data region (95_test_vectors.md 2.4). -/
theorem witness_DataAccessContract :
    Memory.wf [(64511, 5#16)] ∧ memRead [(64511, 5#16)] 64511 = .ok 5#16 ∧ memRead [(64511, 5#16)] 0 = .ok 0#16 ∧
    memRead [(64511, 5#16)] 64512 = .error (.invalidDataAddress 64512) ∧
    memRead [(64511, 5#16)] (-1) = .error (.invalidDataAddress (-1)) := by decide

theorem witness_StartLoadsAndResets :
    (List.replicate 1024 0#16).length ≤ 1024 ∧ 1024 < (List.replicate 1025 0#16).length := by
  rw [List.length_replicate, List.length_replicate]; decide

theorem witness_FirstCycleRunsFirstWord :
    State.start [0xE441#16] = .ok (machine 0 0xE441#16 [] []) ∧ decode 0xE441#16 = .ok (.mov 1 65#10) := by decide

theorem witness_StepRunsDecodedInstruction :
    (machine 2 0xE441#16 [] []).startsCycle ∧
    (machine 2 0xE441#16 [] []).imem[(machine 2 0xE441#16 [] []).pc]? = some 0xE441#16 ∧
    decode 0xE441#16 = .ok (.mov 1 65#10) := by decide

theorem witness_IllegalWordHalts_formatR :
    (machine 2 0x0C00#16 [] []).startsCycle ∧
    (machine 2 0x0C00#16 [] []).imem[(machine 2 0x0C00#16 [] []).pc]? = some 0x0C00#16 ∧
    decode 0x0C00#16 = .error (.unknownOpcodeFormatR 6#6) := by decide

theorem witness_IllegalWordHalts_formatI :
    (machine 2 0xC000#16 [] []).startsCycle ∧
    (machine 2 0xC000#16 [] []).imem[(machine 2 0xC000#16 [] []).pc]? = some 0xC000#16 ∧
    decode 0xC000#16 = .error (.unknownOpcodeFormatI 2#2) := by decide

/-- `pc` exactly at `N`, with no program and with one. -/
theorem witness_FetchBeyondProgramHalts :
    State.reset.startsCycle ∧ State.reset.loadedCount ≤ State.reset.pc ∧
    (State.startsCycle { machine 0 0xE407#16 [] [] with pc := 1 }) ∧
    (State.loadedCount { machine 0 0xE407#16 [] [] with pc := 1 }) ≤ 1 := by decide

/-- A running machine that has used up its cycles. -/
abbrev spent : State := { machine 0 0x8000#16 [] [] with cycles := Config.maxCycles }

theorem witness_CeilingStopsTheRun : spent.status = .running ∧ Config.maxCycles ≤ spent.cycles := by decide

theorem witness_HaltedStateNeverChanges :
    State.reset.finish.status ≠ .running ∧ (State.reset.raise .divisionByZero).status ≠ .running ∧
    spent.reachCeiling.status ≠ .running := by decide

theorem witness_HaltRecords_error : State.reset.status = .running ∧
    ∃ t, step State.reset = .next t ∧ t.status = .error (.invalidInstructionAddress 0) := ⟨rfl, _, rfl, rfl⟩

theorem witness_HaltRecords_ceiling : spent.status = .running ∧
    ∃ t, step spent = .next t ∧ t.status = .ceilingReached := ⟨rfl, _, rfl, rfl⟩

theorem witness_HaltRecords_terminated : (machine 0 0x7E00#16 [] []).status = .running ∧
    ∃ t, step (machine 0 0x7E00#16 [] []) = .next t ∧ t.status = .terminated := ⟨rfl, _, rfl, rfl⟩

/-- Every kind of error a step can end in, each from a running machine. -/
theorem witness_ErrorsArePrecise :
    (∃ t, step State.reset = .next t ∧ t.status = .error (.invalidInstructionAddress 0)) ∧
    (∃ t, step (machine 0 0x0C00#16 [] []) = .next t ∧ t.status = .error (.unknownOpcodeFormatR 6#6)) ∧
    (∃ t, step (machine 0 0xC000#16 [] []) = .next t ∧ t.status = .error (.unknownOpcodeFormatI 2#2)) ∧
    (∃ t, step (machine 0 0x06CA#16 [] []) = .next t ∧ t.status = .error .divisionByZero) ∧
    (∃ t, step (machine 0 0x1E88#16 [(1, 0x8000#16)] []) = .next t ∧
      t.status = .error (.invalidDataAddress (-32768))) ∧
    ∃ t, step (machine 0 0x7E00#16 [(0, 1#16), (1, 0xFFFB#16)] []) = .next t ∧
      t.status = .error (.syscallFault (-5)) :=
  ⟨⟨_, rfl, rfl⟩, ⟨_, rfl, rfl⟩, ⟨_, rfl, rfl⟩, ⟨_, rfl, rfl⟩, ⟨_, rfl, rfl⟩, ⟨_, rfl, rfl⟩⟩

/-- A store (V-M1). -/
abbrev storing : State := machine 0 0x200A#16 [(2, 0x48#16)] []

theorem witness_OnlyStoreChangesData :
    storing.dmem.wf ∧ ∃ t, step storing = .next t ∧ t.dmem.read 0 ≠ storing.dmem.read 0 :=
  ⟨by decide, _, rfl, by decide⟩

theorem witness_RegisterWritersAreTheTable_destination :
    ∃ t, step (machine 0 0xE441#16 [] []) = .next t ∧ t.reg 1 ≠ (machine 0 0xE441#16 [] []).reg 1 :=
  ⟨_, rfl, by decide⟩

/-- Service 7, with an `x[1]` that is not the answer. -/
abbrev askingTime : State := machine 0 0x7E00#16 [(0, 7#16), (1, Config.timeNow 0 + 1#16)] []

theorem witness_RegisterWritersAreTheTable_getTime :
    ∃ t, step askingTime = .next t ∧ t.reg 1 ≠ askingTime.reg 1 := by
  refine ⟨_, rfl, ?_⟩
  show Config.timeNow 0 ≠ Config.timeNow 0 + 1#16
  simp

theorem witness_RunNeverChangesProgram : ∃ t, runSteps 2 storing = .next t := ⟨_, rfl⟩

theorem witness_OutputGrowsOnlyBySyscall : ∃ t, step hiMachine = .next t ∧ t.out = [0x48#16, 0x69#16] := ⟨_, rfl, rfl⟩

theorem witness_StreamsNeverInfluence : ∃ t, step (machine 0 0x7E00#16 [(0, 4#16)] []) = .next t ∧
    t.diag = [.unimplementedService 4] := ⟨_, rfl, rfl⟩

theorem witness_TimeEntersOnlyByGetTime_draws :
    ∃ t, step askingTime = .next t ∧ t.timeCalls ≠ askingTime.timeCalls := ⟨_, rfl, by decide⟩

theorem witness_TimeEntersOnlyByGetTime_drawsNot : ∃ t, step hiMachine = .next t ∧ t.timeCalls = hiMachine.timeCalls := ⟨_, rfl, rfl⟩

theorem witness_InvariantAtStart : ∃ s, State.start [0xE441#16] = .ok s := ⟨_, rfl⟩

theorem witness_StepKeepsInvariant : storing.Inv ∧ ∃ t, step storing = .next t := ⟨by decide, _, rfl⟩

theorem witness_EachStepIsOneCycle : ∃ t, runSteps 1 storing = .next t ∧ t.status = .running := ⟨_, rfl, rfl⟩

/-- The words on both sides of the sign. -/
theorem witness_WordReadings : (0x7FFF#16).toNat < 0x8000 ∧ signed 0x7FFF#16 = 32767 ∧
    0x8000 ≤ (0x8000#16).toNat ∧ signed 0x8000#16 = -32768 := by decide

theorem witness_EveryRunHalts : State.reset.cycles ≤ Config.maxCycles ∧ spent.cycles ≤ Config.maxCycles := by decide

end Sys2Proof.Tests
end

section
/-! Instruction fetch: the word below the loaded count, the error on either side of it (R35). -/

namespace Sys2Proof.Machine

theorem iFetch_of_neg (s : State) {a : Int} (ha : a < 0) :
    iFetch s a = .error (.invalidInstructionAddress a) := if_pos ha

/-- At a natural address `iFetch` is the cycle's fetch with `pc` there. -/
theorem iFetch_natCast (s : State) (n : Nat) : iFetch s n = fetch { s with pc := n } := rfl

theorem iFetch_of_lt_length (s : State) {n : Nat} (hn : n < s.imem.length) :
    iFetch s n = .ok s.imem[n] := by
  simp [iFetch_natCast, fetch_eq, List.getElem?_eq_getElem hn]

theorem iFetch_of_length_le (s : State) {n : Nat} (hn : s.imem.length ≤ n) :
    iFetch s n = .error (.invalidInstructionAddress n) := by
  simp [iFetch_natCast, fetch_eq, List.getElem?_eq_none hn]

/-- Settles O32: the sign of the address first, then its comparison with the loaded count. -/
theorem instructionFetchContract : Obligations.InstructionFetchContract := by
  intro s a
  constructor
  · rintro n hn rfl
    exact iFetch_of_lt_length s hn
  · rintro (hneg | hge)
    · exact iFetch_of_neg s hneg
    · obtain ⟨n, rfl⟩ := Int.eq_ofNat_of_zero_le (show 0 ≤ a by omega)
      exact iFetch_of_length_le s (Int.ofNat_le.mp hge)

end Sys2Proof.Machine
end

section
/-! The two formats of a raw word and the numbers in its fields (R51 to R53). -/

namespace Sys2Proof

/-- The run of `len` bits from bit `start` on, read as unsigned. -/
theorem toNat_field (w : Word) (start len : Nat) :
    (w.extractLsb' start len).toNat = w.toNat / 2 ^ start % 2 ^ len := by
  rw [BitVec.extractLsb'_toNat, Nat.shiftRight_eq_div_pow]

/-- The field in the lowest `len` bits. -/
theorem toNat_lowField (w : Word) (len : Nat) : (w.extractLsb' 0 len).toNat = w.toNat % 2 ^ len := by
  rw [toNat_field, pow_zero, Nat.div_one]

theorem formatBit_iff (w : Word) : w.getLsbD 15 = true ↔ 0x8000 ≤ w.toNat := by
  rw [← BitVec.msb_eq_getLsbD_last w, BitVec.msb_eq_decide, decide_eq_true_iff]

theorem decodeRaw_formatR {w : Word} (h : w.toNat < 0x8000) :
    decodeRaw w = .r (w.extractLsb' 9 6) (w.extractLsb' 6 3) (w.extractLsb' 3 3) (w.extractLsb' 0 3) :=
  if_neg fun bit => Nat.not_le.mpr h ((formatBit_iff w).mp bit)

theorem decodeRaw_formatI {w : Word} (h : 0x8000 ≤ w.toNat) :
    decodeRaw w = .i (w.extractLsb' 13 2) (w.extractLsb' 10 3) (w.extractLsb' 0 10) :=
  if_pos ((formatBit_iff w).mpr h)

theorem decode_of_decodeRaw_r {w : Word} {op : BitVec 6} {rd rs1 rs2 : BitVec 3}
    (h : decodeRaw w = .r op rd rs1 rs2) : decode w = decodeR op rd.toNat rs1.toNat rs2.toNat := by
  rw [decode, h, dispatchOpcode]

theorem decode_of_decodeRaw_i {w : Word} {op : BitVec 2} {rd : BitVec 3} {imm : BitVec 10}
    (h : decodeRaw w = .i op rd imm) : decode w = decodeI op rd.toNat imm := by
  rw [decode, h, dispatchOpcode]

@[simp] theorem decodeR_zero (rd rs1 rs2 : Nat) : decodeR 0#6 rd rs1 rs2 = .ok (.add rd rs1 rs2) := rfl

@[simp] theorem decodeI_zero (rd : Nat) (imm : BitVec 10) : decodeI 0#2 rd imm = .ok (.jump rd imm) := rfl

/-- Settles O3: bit 15 picks the branch of `decodeRaw`, and the numbers of the fields are those of its bit runs. -/
theorem formatFieldPositions : Obligations.FormatFieldPositions := by
  intro w
  constructor
  · intro hR
    have raw := decodeRaw_formatR hR
    have opcode : w.toNat / 512 % 64 = w.toNat / 512 := Nat.mod_eq_of_lt (by omega)
    refine ⟨_, _, _, _, raw, ?_, toNat_field w 6 3, toNat_field w 3 3, toNat_lowField w 3, fun hop => ?_⟩
    · exact (toNat_field w 9 6).trans opcode
    · rw [decode_of_decodeRaw_r raw, hop, decodeR_zero]
  · intro hI
    have raw := decodeRaw_formatI hI
    refine ⟨_, _, _, raw, toNat_field w 13 2, toNat_field w 10 3, toNat_lowField w 10, fun hop => ?_⟩
    rw [decode_of_decodeRaw_i raw, hop, decodeI_zero]

end Sys2Proof
end

section
/-! The program file: its words, when it has none, and the run it starts (R64, R148). -/

namespace Sys2Proof

/-- The two bytes of a word in a program file, low byte first (R64). -/
def bytesOfWord (w : Word) : List (BitVec 8) := [w.setWidth 8, (w >>> 8).setWidth 8]

/-- The high byte before the low byte is the word. -/
theorem highByte_append_lowByte (w : Word) : (w >>> 8).setWidth 8 ++ w.setWidth 8 = w := by
  ext i hi
  rw [BitVec.getElem_append]
  split
  · rw [BitVec.getElem_setWidth, BitVec.getLsbD_eq_getElem hi]
  · rw [BitVec.getElem_setWidth, BitVec.getLsbD_ushiftRight, Nat.add_sub_cancel' (by omega),
      BitVec.getLsbD_eq_getElem hi]

theorem wordsOfBytes_bytesOfWord_append (w : Word) (rest : List (BitVec 8)) :
    wordsOfBytes (bytesOfWord w ++ rest) = (wordsOfBytes rest).map (w :: ·) := by
  simp only [bytesOfWord, List.cons_append, List.nil_append, wordsOfBytes, highByte_append_lowByte]

theorem wordsOfBytes_flatMap_bytesOfWord (words : List Word) :
    wordsOfBytes (words.flatMap bytesOfWord) = some words := by
  induction words with
  | nil => rfl
  | cons w ws ih => rw [List.flatMap_cons, wordsOfBytes_bytesOfWord_append, ih, Option.map_some]

theorem wordsOfBytes_eq_none_iff (bytes : List (BitVec 8)) :
    wordsOfBytes bytes = none ↔ bytes.length % 2 = 1 := by
  induction bytes using wordsOfBytes.induct with
  | case1 => simp [wordsOfBytes]
  | case2 => simp [wordsOfBytes]
  | case3 lo hi rest ih =>
    rw [wordsOfBytes, Option.map_eq_none_iff, ih, List.length_cons, List.length_cons, Nat.add_assoc,
      Nat.add_mod_right]

namespace Machine

theorem State.startFile_of_none {bytes : List (BitVec 8)} (h : wordsOfBytes bytes = none) :
    State.startFile bytes = .error .loadFormatError := by
  rw [State.startFile, h]

theorem State.startFile_of_some {bytes : List (BitVec 8)} {words : List Word}
    (h : wordsOfBytes bytes = some words) : State.startFile bytes = State.start words := by
  rw [State.startFile, h]

end Machine

/-- Settles O6: the round trip by induction on the words, the odd files by the recursion of `wordsOfBytes`, which drops
two bytes at a time. -/
theorem programFileLayout : Obligations.ProgramFileLayout :=
  ⟨wordsOfBytes_flatMap_bytesOfWord, fun bytes =>
    ⟨wordsOfBytes_eq_none_iff bytes,
      fun odd => Machine.State.startFile_of_none ((wordsOfBytes_eq_none_iff bytes).mpr odd),
      fun _ => Machine.State.startFile_of_some⟩⟩

end Sys2Proof
end

section
/-! The word of a format R instruction over registers decodes back to its opcode and registers (R52, R55, R63). -/

namespace Sys2Proof

theorem encR_formatBit (op : BitVec 6) (rd rs1 rs2 : Nat) : (encR op rd rs1 rs2).getLsbD 15 = false := by
  simp only [encR, BitVec.getLsbD_append]
  rfl

/-- Each field is cut off where `encR` has put it: the appended runs below it are passed over one by one. -/
theorem decodeRaw_encR (op : BitVec 6) (rd rs1 rs2 : Nat) :
    decodeRaw (encR op rd rs1 rs2) = .r op (.ofNat 3 rd) (.ofNat 3 rs1) (.ofNat 3 rs2) := by
  rw [decodeRaw, encR_formatBit, if_neg Bool.false_ne_true]
  simp only [encR, BitVec.extractLsb'_append_eq_of_le, BitVec.extractLsb'_append_eq_right, Nat.reduceLeDiff,
    Nat.reduceSub]

/-- The index of a register fits its 3-bit field (R10, R52). -/
theorem toNat_ofNat_reg (r : Reg) : (BitVec.ofNat 3 r).toNat = r :=
  (BitVec.toNat_ofNat r 3).trans (Nat.mod_eq_of_lt r.isLt)

theorem decode_encR (op : BitVec 6) (d a b : Reg) : decode (encR op d a b) = decodeR op d a b := by
  rw [decode_of_decodeRaw_r (decodeRaw_encR op d a b), toNat_ofNat_reg, toNat_ofNat_reg, toNat_ofNat_reg]

@[simp] theorem decodeR_two (rd rs1 rs2 : Nat) : decodeR 2#6 rd rs1 rs2 = .ok (.mul rd rs1 rs2) := rfl

end Sys2Proof
end

section
/-! The arithmetic instructions that cannot fail: the wrapped result in `x[rd]`, and nothing else (R90, R91, R93). -/

namespace Sys2Proof.Machine

/-- The frame of an instruction whose one effect is a register write (R78, R79): the register holds the word, `pc`
has moved on, and the rest is as before. -/
theorem setReg_nextPc_frame (s : State) (d : Reg) (v : Word) :
    let t : State := { s.setReg d v with pc := s.pc + 1 }
    t.reg d = v ∧ s.sameRegistersBut d t ∧ t.pc = s.pc + 1 ∧ s.sameMemory t ∧ s.sameStreams t ∧ s.sameRun t :=
  ⟨s.reg_setReg_same d v, fun q hq => s.reg_setReg_other d q v hq, rfl, ⟨fun _ => rfl, rfl⟩,
    ⟨rfl, rfl, rfl, rfl⟩, ⟨rfl, rfl⟩⟩

/-- With register fields, no check of `arithmetic` fails and its cycle is one register write. -/
theorem arithmetic_reg (op : Int → Int → Int) (d a b : Reg) (s : State) :
    arithmetic op d a b s =
      { s.setReg d (wrap16 (op (signed (s.reg a)) (signed (s.reg b)))) with pc := s.pc + 1 } := by
  rw [arithmetic, cycleR_reg, finishCycle_write, State.regSigned, State.regSigned]

/-- What R90 says of every such instruction, whatever the operation on the signed readings. -/
theorem arithmetic_result (op : Int → Int → Int) (d a b : Reg) (s : State) :
    let t := arithmetic op d a b s
    t.reg d = wrap16 (op (signed (s.reg a)) (signed (s.reg b))) ∧
      ((t.reg d).toNat : Int) = op (signed (s.reg a)) (signed (s.reg b)) % 65536 ∧
      s.sameRegistersBut d t ∧ t.pc = s.pc + 1 ∧ s.sameMemory t ∧ s.sameStreams t ∧ s.sameRun t := by
  rw [arithmetic_reg]
  obtain ⟨written, frame⟩ := setReg_nextPc_frame s d (wrap16 (op (signed (s.reg a)) (signed (s.reg b))))
  exact ⟨written, by rw [written, wrap16_toNat], frame⟩

theorem exec_add (rd rs1 rs2 : Nat) (s : State) :
    exec (.add rd rs1 rs2) s = .next (arithmetic (fun A B => A + B) rd rs1 rs2 s) := rfl

theorem exec_mul (rd rs1 rs2 : Nat) (s : State) :
    exec (.mul rd rs1 rs2) s = .next (arithmetic (fun A B => A * B) rd rs1 rs2 s) := rfl

/-- Settles O7: opcode 0 decodes to `add`, whose cycle is `arithmetic` at the sum. -/
theorem addResult : Obligations.AddResult := by
  intro d a b s
  have decodes : decode (encR 0#6 d a b) = .ok (.add d a b) := by rw [decode_encR, decodeR_zero]
  exact ⟨decodes, Laws.EncodingMatchesTable.add d a b, _, exec_add d a b s, arithmetic_result _ d a b s⟩

/-- Settles O9: opcode 2 decodes to `mul`, whose cycle is `arithmetic` at the product. -/
theorem mulResult : Obligations.MulResult := by
  intro d a b s
  have decodes : decode (encR 2#6 d a b) = .ok (.mul d a b) := by rw [decode_encR, decodeR_two]
  exact ⟨decodes, Laws.EncodingMatchesTable.mul d a b, _, exec_mul d a b s, arithmetic_result _ d a b s⟩

end Sys2Proof.Machine
end

section
/-! The comparison instructions: 1 or 0 in `x[rd]`, and nothing else (R100 to R102). -/

namespace Sys2Proof

@[simp] theorem decodeR_four (rd rs1 rs2 : Nat) : decodeR 4#6 rd rs1 rs2 = .ok (.cmpEqual rd rs1 rs2) := rfl

@[simp] theorem decodeR_five (rd rs1 rs2 : Nat) : decodeR 5#6 rd rs1 rs2 = .ok (.cmpNotEqual rd rs1 rs2) := rfl

namespace Machine

/-- The word of a Boolean test is that of any proposition the test decides. -/
theorem truthWord_eq_ite {test : Bool} {p : Prop} [Decidable p] (h : test = true ↔ p) :
    truthWord test = if p then 1#16 else 0#16 := by
  simp only [truthWord, h]

/-- With register fields, no check of `compare` fails and its cycle is one register write. -/
theorem compare_reg (holds : Word → Word → Bool) (d a b : Reg) (s : State) :
    compare holds d a b s = { s.setReg d (truthWord (holds (s.reg a) (s.reg b))) with pc := s.pc + 1 } := by
  rw [compare, cycleR_reg, finishCycle_write]

/-- What R102 says of both comparisons, for a test that decides the relation `p` between the source words. -/
theorem compare_result {holds : Word → Word → Bool} {p : Word → Word → Prop} [DecidableRel p]
    (decides : ∀ v w, holds v w = true ↔ p v w) (d a b : Reg) (s : State) :
    let t := compare holds d a b s
    t.reg d = (if p (s.reg a) (s.reg b) then 1#16 else 0#16) ∧
      s.sameRegistersBut d t ∧ t.pc = s.pc + 1 ∧ s.sameMemory t ∧ s.sameStreams t ∧ s.sameRun t := by
  rw [compare_reg, truthWord_eq_ite (decides _ _)]
  exact setReg_nextPc_frame s d _

theorem exec_cmpEqual (rd rs1 rs2 : Nat) (s : State) :
    exec (.cmpEqual rd rs1 rs2) s = .next (compare (fun v w => v == w) rd rs1 rs2 s) := rfl

theorem exec_cmpNotEqual (rd rs1 rs2 : Nat) (s : State) :
    exec (.cmpNotEqual rd rs1 rs2) s = .next (compare (fun v w => v != w) rd rs1 rs2 s) := rfl

/-- Settles O12: opcode 4 decodes to `cmp_equal`, whose cycle is `compare` at a test that decides equality. -/
theorem cmpEqualResult : Obligations.CmpEqualResult := by
  intro d a b s
  have decodes : decode (encR 4#6 d a b) = .ok (.cmpEqual d a b) := by rw [decode_encR, decodeR_four]
  exact ⟨decodes, Laws.EncodingMatchesTable.cmpEqual d a b, _, exec_cmpEqual d a b s,
    compare_result (p := fun v w => v = w) (fun _ _ => beq_iff_eq) d a b s⟩

/-- Settles O13: opcode 5 decodes to `cmp_not_equal`, whose cycle is `compare` at a test that decides difference. -/
theorem cmpNotEqualResult : Obligations.CmpNotEqualResult := by
  intro d a b s
  have decodes : decode (encR 5#6 d a b) = .ok (.cmpNotEqual d a b) := by rw [decode_encR, decodeR_five]
  exact ⟨decodes, Laws.EncodingMatchesTable.cmpNotEqual d a b, _, exec_cmpNotEqual d a b s,
    compare_result (p := fun v w => v ≠ w) (fun _ _ => bne_iff_ne) d a b s⟩

end Machine

end Sys2Proof
end

section
/-! The cycle of a syscall, and the one that service 0 ends (R110, R112). -/

namespace Sys2Proof.Machine

/-- With register fields the validation passes, and the rest of the cycle is the selected service and steps 5 to 8. -/
theorem exec_syscall_reg (d a b : Reg) (s : State) :
    exec (.syscall d a b) s =
      .next (finishCycle (serviceOf (s.regSigned 0) s).1 (serviceOf (s.regSigned 0) s).2) :=
  congrArg Host.Outcome.next (cycleR_reg d a b (fun _ _ _ => serviceOf (s.regSigned 0) s) s)

/-- The selector is read signed, and the word 0 reads as service 0 (R110). -/
theorem serviceOf_of_reg_zero {s : State} (h : s.reg 0 = 0#16) :
    serviceOf (s.regSigned 0) s = (s, { Result.empty with terminate := true }) :=
  congrFun (if_pos (signed_eq_zero_iff.mpr h)) s

/-- A cycle that ends the run adds the two records of R165 and moves `pc`; every other part of the state stays. -/
theorem finish_nextPc_frame (s : State) :
    let t := State.finish { s with pc := s.pc + 1 }
    s.haltsAs .terminated .terminatedNotice t ∧ s.sameRegisters t ∧ s.sameMemory t ∧ t.pc = s.pc + 1 :=
  ⟨⟨rfl, rfl, rfl, rfl, rfl, rfl⟩, fun _ => rfl, ⟨fun _ => rfl, rfl⟩, rfl⟩

/-- Settles O17: selector 0 picks the service whose one effect is to end the run after its cycle. -/
theorem syscallTerminate : Obligations.SyscallTerminate := by
  intro d a b s selectsZero
  have terminates : exec (.syscall d a b) s = .next (State.finish { s with pc := s.pc + 1 }) := by
    rw [exec_syscall_reg, serviceOf_of_reg_zero selectsZero, finishCycle_terminate]
  exact ⟨_, terminates, finish_nextPc_frame s⟩

end Sys2Proof.Machine
end

section
/-! The word of a format I instruction over a register decodes back to its opcode, register and immediate (R53, R55,
R63). -/

namespace Sys2Proof

theorem encI_formatBit (op : BitVec 2) (rd : Nat) (imm : BitVec 10) : (encI op rd imm).getLsbD 15 = true := by
  simp only [encI, BitVec.getLsbD_append]
  rfl

theorem decodeRaw_encI (op : BitVec 2) (rd : Nat) (imm : BitVec 10) :
    decodeRaw (encI op rd imm) = .i op (.ofNat 3 rd) imm := by
  rw [decodeRaw, encI_formatBit, if_pos rfl]
  simp only [encI, BitVec.extractLsb'_append_eq_of_le, BitVec.extractLsb'_append_eq_right, Nat.reduceLeDiff,
    Nat.reduceSub]

theorem decode_encI (op : BitVec 2) (d : Reg) (imm : BitVec 10) : decode (encI op d imm) = decodeI op d imm := by
  rw [decode_of_decodeRaw_i (decodeRaw_encI op d imm), toNat_ofNat_reg]

@[simp] theorem decodeI_one (rd : Nat) (imm : BitVec 10) : decodeI 1#2 rd imm = .ok (.jumpCond rd imm) := rfl

end Sys2Proof
end

section
/-! Control transfer: `pc` alone changes (R125, R126). -/

namespace Sys2Proof.Machine

/-- The frame of an instruction whose one effect is on `pc`, wherever it goes (R79). -/
theorem setPc_frame (s : State) (p : Nat) :
    let t : State := { s with pc := p }
    s.sameRegisters t ∧ s.sameMemory t ∧ s.sameStreams t ∧ s.sameRun t :=
  ⟨fun _ => rfl, ⟨fun _ => rfl, rfl⟩, ⟨rfl, rfl, rfl, rfl⟩, ⟨rfl, rfl⟩⟩

/-- The jump is taken on the value 1 and on no other (R126). -/
theorem conditionHolds_iff (v : Word) : conditionHolds v = true ↔ v = 0x0001#16 := beq_iff_eq

theorem exec_jumpCond (rd : Nat) (imm : BitVec 10) (s : State) :
    exec (.jumpCond rd imm) s =
      .next (cycleI rd (fun c => (s, { Result.empty with condJump := some (c, immU imm) })) s) := rfl

/-- With a register field the validation passes, and the cycle only chooses the next `pc`. The instruction writes no
register, so step 7 reads the condition from the state before the cycle (R79). -/
theorem exec_jumpCond_reg (c : Reg) (imm : BitVec 10) (s : State) :
    exec (.jumpCond c imm) s =
      .next { s with pc := if s.reg c = 0x0001#16 then imm.toNat else s.pc + 1 } := by
  rw [exec_jumpCond, cycleI_reg, finishCycle_condJump]
  simp only [conditionHolds_iff, immU]

/-- Settles O27: opcode 1 of format I decodes to `jump_cond`, whose cycle sets `pc` by the condition register and keeps
the rest. -/
theorem jumpCondResult : Obligations.JumpCondResult := by
  intro c imm s
  have decodes : decode (encI 1#2 c imm) = .ok (.jumpCond c imm) := by rw [decode_encI, decodeI_one]
  exact ⟨decodes, Laws.EncodingMatchesTable.jumpCond c imm, _, exec_jumpCond_reg c imm s, rfl, setPc_frame s _⟩

end Sys2Proof.Machine
end

section
/-! The move instruction: the sign-extended immediate in `x[rd]`, and nothing else (R54, R130). -/

namespace Sys2Proof

@[simp] theorem decodeI_three (rd : Nat) (imm : BitVec 10) : decodeI 3#2 rd imm = .ok (.mov rd imm) := rfl

namespace Machine

/-- Bit 9 is the sign: from 512 on, sign extension adds the six high bits 0xFC00 to the number (R7, R54). -/
theorem immS_toNat (imm : BitVec 10) :
    (immS imm).toNat = if imm.toNat < 512 then imm.toNat else imm.toNat + 0xFC00 := by
  have sign : imm.msb = decide (512 ≤ imm.toNat) := BitVec.msb_eq_decide imm
  have fits : imm.toNat % 2 ^ 16 = imm.toNat := Nat.mod_eq_of_lt (by omega)
  rw [immS, sext10_eq_signExtend, BitVec.toNat_signExtend, BitVec.toNat_setWidth, fits, sign]
  by_cases small : imm.toNat < 512
  · simp [small]
  · simp [small, Nat.le_of_not_lt small]

theorem immS_eq_ite (imm : BitVec 10) :
    immS imm =
      if imm.toNat < 512 then BitVec.ofNat 16 imm.toNat else BitVec.ofNat 16 (imm.toNat + 0xFC00) := by
  rw [← apply_ite (BitVec.ofNat 16), ← immS_toNat, BitVec.ofNat_toNat, BitVec.setWidth_eq]

theorem exec_mov (rd : Nat) (imm : BitVec 10) (s : State) :
    exec (.mov rd imm) s = .next (cycleI rd (fun d => (s, Result.write d (immS imm))) s) := rfl

/-- With a register field the validation passes, and the cycle is one register write. -/
theorem exec_mov_reg (d : Reg) (imm : BitVec 10) (s : State) :
    exec (.mov d imm) s = .next { s.setReg d (immS imm) with pc := s.pc + 1 } := by
  rw [exec_mov, cycleI_reg, finishCycle_write]

/-- Settles O28: opcode 3 of format I decodes to `mov`, whose cycle writes the sign-extended immediate and keeps the
rest. -/
theorem movResult : Obligations.MovResult := by
  intro d imm s
  have decodes : decode (encI 3#2 d imm) = .ok (.mov d imm) := by rw [decode_encI, decodeI_three]
  obtain ⟨written, frame⟩ := setReg_nextPc_frame s d (immS imm)
  exact ⟨decodes, Laws.EncodingMatchesTable.mov d imm, _, exec_mov_reg d imm s, written.trans (immS_eq_ite imm), frame⟩

end Machine

end Sys2Proof
end

section
/-! The decoder and the encoder are inverse, and the opcode map by mask and match (R56 to R58, R63). -/

namespace Sys2Proof

/-! ### From an instruction to its word -/

/-- What the validate step checks is that every register field names a register (R74). -/
theorem Instr.wellFormed_iff (i : Instr) : i.wellFormed = true ↔ ∀ r ∈ i.registerFields, r < 8 := by
  rw [Instr.wellFormed, List.all_eq_true]
  simp only [decide_eq_true_eq]

/-- A well-formed instruction's format R word gives its opcode and its three fields back. -/
theorem decode_encR_of_wellFormed {i : Instr} {rd rs1 rs2 : Nat} (op : BitVec 6)
    (fields : i.registerFields = [rd, rs1, rs2]) (wf : i.wellFormed = true) :
    decode (encR op rd rs1 rs2) = decodeR op rd rs1 rs2 := by
  simp only [Instr.wellFormed_iff, fields, List.forall_mem_cons] at wf
  obtain ⟨hd, ha, hb, -⟩ := wf
  exact decode_encR op ⟨rd, hd⟩ ⟨rs1, ha⟩ ⟨rs2, hb⟩

/-- A well-formed instruction's format I word gives its opcode, its register field and its immediate back. -/
theorem decode_encI_of_wellFormed {i : Instr} {rd : Nat} (op : BitVec 2) (imm : BitVec 10)
    (fields : i.registerFields = [rd]) (wf : i.wellFormed = true) :
    decode (encI op rd imm) = decodeI op rd imm := by
  simp only [Instr.wellFormed_iff, fields, List.forall_mem_cons] at wf
  exact decode_encI op ⟨rd, wf.1⟩ imm

theorem decode_encode {i : Instr} (wf : i.wellFormed = true) : decode (encode i) = .ok i := by
  cases i with
  | add => exact decode_encR_of_wellFormed 0#6 rfl wf
  | sub => exact decode_encR_of_wellFormed 1#6 rfl wf
  | mul => exact decode_encR_of_wellFormed 2#6 rfl wf
  | div => exact decode_encR_of_wellFormed 3#6 rfl wf
  | cmpEqual => exact decode_encR_of_wellFormed 4#6 rfl wf
  | cmpNotEqual => exact decode_encR_of_wellFormed 5#6 rfl wf
  | load => exact decode_encR_of_wellFormed 15#6 rfl wf
  | store => exact decode_encR_of_wellFormed 16#6 rfl wf
  | syscall => exact decode_encR_of_wellFormed 63#6 rfl wf
  | jump => exact decode_encI_of_wellFormed 0#2 _ rfl wf
  | jumpCond => exact decode_encI_of_wellFormed 1#2 _ rfl wf
  | mov => exact decode_encI_of_wellFormed 3#2 _ rfl wf

/-! ### From a word to its instruction -/

/-- The opcodes of format R that name an instruction (R56). -/
def opcodesR : List (BitVec 6) := [0#6, 1#6, 2#6, 3#6, 4#6, 5#6, 15#6, 16#6, 63#6]

/-- Any other opcode of format R is unknown (R58). -/
theorem decodeR_unknown {op : BitVec 6} (h : op ∉ opcodesR) (rd rs1 rs2 : Nat) :
    decodeR op rd rs1 rs2 = .error (.unknownOpcodeFormatR op) := by
  simp only [opcodesR, List.mem_cons, List.not_mem_nil, not_or] at h
  simp [decodeR, h]

/-- Everything the opcode map of format R can answer (R56, R58): an instruction that `encode` gives this opcode and
that drops no field, or the unknown-opcode error. -/
theorem decodeR_cases {op : BitVec 6} {rd rs1 rs2 : Nat} {r : Except DecodeError Instr}
    (h : decodeR op rd rs1 rs2 = r) :
    (∃ i, r = .ok i ∧ encode i = encR op rd rs1 rs2 ∧ i.registerFields = [rd, rs1, rs2]) ∨
      r = .error (.unknownOpcodeFormatR op) := by
  by_cases legal : op ∈ opcodesR
  · simp only [opcodesR, List.mem_cons, List.not_mem_nil, or_false] at legal
    rcases legal with rfl | rfl | rfl | rfl | rfl | rfl | rfl | rfl | rfl <;> exact .inl ⟨_, h.symm, rfl, rfl⟩
  · exact .inr (h.symm.trans (decodeR_unknown legal rd rs1 rs2))

/-- The one opcode of format I that names no instruction (R57). -/
theorem opcodeI_unknown : ∀ op : BitVec 2, op ≠ 0#2 → op ≠ 1#2 → op ≠ 3#2 → op = 2#2 := by decide

/-- Everything the opcode map of format I can answer (R57, R58). -/
theorem decodeI_cases {op : BitVec 2} {rd : Nat} {imm : BitVec 10} {r : Except DecodeError Instr}
    (h : decodeI op rd imm = r) :
    (∃ i, r = .ok i ∧ encode i = encI op rd imm ∧ i.registerFields = [rd]) ∨
      (op = 2#2 ∧ r = .error (.unknownOpcodeFormatI op)) := by
  unfold decodeI at h
  split_ifs at h with h0 h1 h3
  · subst op h
    exact .inl ⟨_, rfl, rfl, rfl⟩
  · subst op h
    exact .inl ⟨_, rfl, rfl, rfl⟩
  · subst op h
    exact .inl ⟨_, rfl, rfl, rfl⟩
  · exact .inr ⟨opcodeI_unknown op h0 h1 h3, h.symm⟩

/-- The four fields and the format bit are the whole of a format R word (R52). -/
theorem encR_fields {w : Word} (hR : w.toNat < 0x8000) :
    encR (w.extractLsb' 9 6) (w.extractLsb' 6 3).toNat (w.extractLsb' 3 3).toNat (w.extractLsb' 0 3).toNat = w := by
  have format : w.extractLsb' 15 1 = 0#1 := BitVec.eq_of_toNat_eq (by rw [toNat_field]; simp; omega)
  simp only [encR, BitVec.ofNat_toNat, BitVec.setWidth_eq, ← format]
  simp (disch := rfl) only [BitVec.extractLsb'_append_extractLsb'_eq_extractLsb']
  exact BitVec.extractLsb'_eq_self

/-- The three fields and the format bit are the whole of a format I word (R53). -/
theorem encI_fields {w : Word} (hI : 0x8000 ≤ w.toNat) :
    encI (w.extractLsb' 13 2) (w.extractLsb' 10 3).toNat (w.extractLsb' 0 10) = w := by
  have format : w.extractLsb' 15 1 = 1#1 := BitVec.eq_of_toNat_eq (by rw [toNat_field]; simp; omega)
  simp only [encI, BitVec.ofNat_toNat, BitVec.setWidth_eq, ← format]
  simp (disch := rfl) only [BitVec.extractLsb'_append_extractLsb'_eq_extractLsb']
  exact BitVec.extractLsb'_eq_self

theorem encode_of_decode {w : Word} {i : Instr} (h : decode w = .ok i) : encode i = w ∧ i.wellFormed = true := by
  rw [Instr.wellFormed_iff]
  rcases Nat.lt_or_ge w.toNat 0x8000 with hR | hI
  · rw [decode_of_decodeRaw_r (decodeRaw_formatR hR)] at h
    rcases decodeR_cases h with ⟨_, ⟨⟩, word, fields⟩ | ⟨⟨⟩⟩
    exact ⟨word.trans (encR_fields hR), by simp [fields]; omega⟩
  · rw [decode_of_decodeRaw_i (decodeRaw_formatI hI)] at h
    rcases decodeI_cases h with ⟨_, ⟨⟩, word, fields⟩ | ⟨-, ⟨⟩⟩
    exact ⟨word.trans (encI_fields hI), by simp [fields]; omega⟩

/-- Settles O1: one way by the opcode of each instruction, the other by the two opcode maps, whose fields make up the
whole word. -/
theorem decodeEncodeAgree : Obligations.DecodeEncodeAgree :=
  ⟨fun _ => decode_encode, fun _ _ => encode_of_decode⟩

/-- Settles O2, by evaluation of the decoder. -/
theorem decodeSpecWords : Obligations.DecodeSpecWords := by
  unfold Obligations.DecodeSpecWords
  decide

end Sys2Proof
end

section
/-! The opcode map by mask and match, and the illegal runs of words (R56 to R58). -/

namespace Sys2Proof

open Machine

/-- A bit of a masked word that lies in a run of ones of the mask is the word's own bit. -/
theorem getLsbD_of_and_eq {w mask value : Word} (h : w &&& mask = value) {k : Nat} (one : mask.getLsbD k = true) :
    w.getLsbD k = value.getLsbD k := by
  rw [← h, BitVec.getLsbD_and, one, Bool.and_true]

/-- A word whose bits 15 to 9 are the format bit 0 and an opcode is read by that opcode of format R (R52). -/
theorem decode_of_maskR {w : Word} {op : BitVec 6} (h : w &&& 0xFE00#16 = op.setWidth 16 <<< 9) :
    decode w = decodeR op (fieldRd w) (fieldRs1 w) (fieldRs2 w) := by
  have format : ¬ 0x8000 ≤ w.toNat := by
    rw [← formatBit_iff, getLsbD_of_and_eq h (by decide)]
    simp
  have opcode : w.extractLsb' 9 6 = op := by
    ext k hk
    have one : (0xFE00#16).getLsbD (9 + k) = true := by interval_cases k <;> rfl
    rw [BitVec.getElem_extractLsb', getLsbD_of_and_eq h one]
    interval_cases k <;> simp
  have raw := decodeRaw_formatR (Nat.lt_of_not_le format)
  rw [decode_of_decodeRaw_r raw, opcode, toNat_field, toNat_field, toNat_lowField]
  rfl

/-- A word whose bits 15 to 13 are the format bit 1 and an opcode is read by that opcode of format I (R53). -/
theorem decode_of_maskI {w : Word} {op : BitVec 2} (h : w &&& 0xE000#16 = 0x8000#16 ||| op.setWidth 16 <<< 13) :
    decode w = decodeI op (fieldRdI w) (fieldImm w) := by
  have format : 0x8000 ≤ w.toNat := by
    rw [← formatBit_iff, getLsbD_of_and_eq h (by decide)]
    simp
  have opcode : w.extractLsb' 13 2 = op := by
    ext k hk
    have one : (0xE000#16).getLsbD (13 + k) = true := by interval_cases k <;> rfl
    rw [BitVec.getElem_extractLsb', getLsbD_of_and_eq h one]
    interval_cases k <;> simp
  have imm : w.extractLsb' 0 10 = fieldImm w :=
    BitVec.eq_of_toNat_eq (by rw [toNat_lowField, fieldImm, BitVec.toNat_ofNat, Nat.mod_mod]; rfl)
  rw [decode_of_decodeRaw_i (decodeRaw_formatI format), opcode, imm, toNat_field]
  rfl

/-- Between and beyond the opcodes of R56 lie the unknown ones. -/
theorem not_mem_opcodesR {op : BitVec 6}
    (h : 6 ≤ op.toNat ∧ op.toNat ≤ 14 ∨ 17 ≤ op.toNat ∧ op.toNat ≤ 62) : op ∉ opcodesR := by
  intro legal
  simp only [opcodesR, List.mem_cons, List.not_mem_nil, or_false] at legal
  rcases legal with rfl | rfl | rfl | rfl | rfl | rfl | rfl | rfl | rfl <;> simp at h

/-- A format R word with an unknown opcode decodes to that error. -/
theorem decode_unknownR {w : Word}
    (h : 0x0C00 ≤ w.toNat ∧ w.toNat ≤ 0x1DFF ∨ 0x2200 ≤ w.toNat ∧ w.toNat ≤ 0x7DFF) :
    decode w = .error (.unknownOpcodeFormatR (BitVec.ofNat 6 (w.toNat / 512))) := by
  have opcode : w.extractLsb' 9 6 = BitVec.ofNat 6 (w.toNat / 512) :=
    BitVec.eq_of_toNat_eq (by rw [toNat_field, BitVec.toNat_ofNat]; rfl)
  have number : (BitVec.ofNat 6 (w.toNat / 512)).toNat = w.toNat / 512 := by
    rw [BitVec.toNat_ofNat, Nat.mod_eq_of_lt (by omega)]
  rw [decode_of_decodeRaw_r (decodeRaw_formatR (by omega)), opcode, decodeR_unknown (not_mem_opcodesR (by omega))]

/-- A format I word with the unknown opcode 2 decodes to that error. -/
theorem decode_unknownI {w : Word} (h : 0xC000 ≤ w.toNat ∧ w.toNat ≤ 0xDFFF) :
    decode w = .error (.unknownOpcodeFormatI 2#2) := by
  have opcode : w.extractLsb' 13 2 = 2#2 := BitVec.eq_of_toNat_eq (by rw [toNat_field]; simp; omega)
  rw [decode_of_decodeRaw_i (decodeRaw_formatI (by omega)), opcode]
  rfl

/-- Settles O4: a row's match is the row's opcode at its place, and the illegal runs are the remaining opcodes. -/
theorem opcodeMapIsComplete : Obligations.OpcodeMapIsComplete := fun w =>
  ⟨decode_of_maskR (w := w) (op := 0#6), decode_of_maskR (op := 1#6), decode_of_maskR (op := 2#6),
    decode_of_maskR (op := 3#6), decode_of_maskR (op := 4#6), decode_of_maskR (op := 5#6),
    decode_of_maskR (op := 15#6), decode_of_maskR (op := 16#6), decode_of_maskR (op := 63#6),
    decode_of_maskI (op := 0#2), decode_of_maskI (op := 1#2), decode_of_maskI (op := 3#2),
    decode_unknownR, decode_unknownI⟩

end Sys2Proof
end

section
/-! What one instruction keeps, and who may change the rest: each part of the state read off the effects. -/

namespace Sys2Proof.Machine

section Effects

variable {i : Instr} {s t : State}

/-- No instruction changes the instruction region (R31). -/
theorem Effect.imem_eq (h : Effect i s t) : t.imem = s.imem := by
  cases h <;> rfl

/-- No instruction counts a cycle: the count is made before it (R18). -/
theorem Effect.cycles_eq (h : Effect i s t) : t.cycles = s.cycles := by
  cases h <;> rfl

/-- A data word is changed by a store, at its address, or not at all (R46). -/
theorem Effect.dmem_cases (h : Effect i s t) :
    t.dmem = s.dmem ∨ ∃ d a b : Reg, i = .store d a b ∧ 0 ≤ s.dataAddress a ∧
      t.dmem = s.dmem.write (s.dataAddress a).toNat (s.reg b) := by
  cases h with
  | store d a b hi ha => exact .inr ⟨d, a, b, hi, ha, rfl⟩
  | _ => exact .inl rfl

/-- A register is changed by the write-back of a destination or by service 7, or not at all (R13). -/
theorem Effect.reg_cases (h : Effect i s t) (q : Reg) :
    t.reg q = s.reg q ∨ destination i = some q.val ∨
      ((∃ d a b : Reg, i = .syscall d a b) ∧ s.reg 0 = 7#16 ∧ q = 1) := by
  cases h with
  | write d v hd =>
    by_cases hq : q = d
    · exact .inr (.inl (hq ▸ hd))
    · exact .inl (s.reg_setReg_other d q v hq)
  | getTime d a b hi h0 =>
    by_cases hq : q = 1
    · exact .inr (.inr ⟨⟨d, a, b, hi⟩, h0, hq⟩)
    · exact .inl (s.reg_setReg_other 1 q _ hq)
  | _ => exact .inl rfl

/-- The output is left as it was, or extended by service 1, 2 or 3 (R121). -/
theorem Effect.out_cases (h : Effect i s t) :
    t.out = s.out ∨ ∃ (d a b : Reg) (text : List Word), i = .syscall d a b ∧ s.reg 0 ∈ [1#16, 2#16, 3#16] ∧
      t.out = s.out ++ text := by
  cases h with
  | print d a b text hi h0 => exact .inr ⟨d, a, b, text, hi, h0, rfl⟩
  | scanFault d a b text n hi h0 => exact .inr ⟨d, a, b, text, hi, h0 ▸ List.mem_cons_self, rfl⟩
  | _ => exact .inl (by rfl)

/-- No answer of the host is drawn, or one by service 7 (R118). -/
theorem Effect.timeCalls_cases (h : Effect i s t) :
    t.timeCalls = s.timeCalls ∨
      ∃ d a b : Reg, i = .syscall d a b ∧ s.reg 0 = 7#16 ∧ t.timeCalls = s.timeCalls + 1 := by
  cases h with
  | getTime d a b hi h0 => exact .inr ⟨d, a, b, hi, h0, rfl⟩
  | _ => exact .inl rfl

end Effects

/-- Nothing of the machine proper changes: at most `pc`, the count, the status and the records do. -/
structure State.Idle (s t : State) : Prop where
  x : t.x = s.x
  dmem : t.dmem = s.dmem
  imem : t.imem = s.imem
  out : t.out = s.out
  timeCalls : t.timeCalls = s.timeCalls

theorem State.Idle.reg {s t : State} (h : s.Idle t) (q : Reg) : t.reg q = s.reg q := by
  rw [State.reg, h.x, State.reg]

/-- Every step is idle (halted, the ceiling, a bad fetch, an illegal word) or has an effect of the instruction at
`pc`, in the state whose cycle is counted. -/
theorem step_idle_or_effect {s t : State} (h : step s = .next t) :
    s.Idle t ∨ ∃ w i, s.imem[s.pc]? = some w ∧ decode w = .ok i ∧ Effect i s.countCycle t := by
  rcases step_cases h with ⟨-, rfl⟩ | ⟨-, -, rfl⟩ | hs
  · exact .inl ⟨rfl, rfl, rfl, rfl, rfl⟩
  · exact .inl ⟨rfl, rfl, rfl, rfl, rfl⟩
  · rcases step_cycle_cases hs h with effect | ⟨-, -, -, -, rfl⟩ | ⟨-, rfl⟩
    · exact .inr effect
    · exact .inl ⟨rfl, rfl, rfl, rfl, rfl⟩
    · exact .inl ⟨rfl, rfl, rfl, rfl, rfl⟩

/-- Settles O44: a changed data word is at the address of a store, and the canonical form makes the word there the one
stored. -/
theorem onlyStoreChangesData : Obligations.OnlyStoreChangesData := by
  intro s t n wf h changed
  rcases step_idle_or_effect h with idle | ⟨w, i, hw, hd, effect⟩
  · exact absurd (congrArg (Memory.read · n) idle.dmem) changed
  rcases effect.dmem_cases with same | ⟨d, a, b, rfl, ha, stored⟩
  · exact absurd (congrArg (Memory.read · n) same) changed
  simp only [State.countCycle_dmem, State.dataAddress, State.countCycle_reg] at ha stored
  have address : n = (signed (s.reg a)).toNat := by
    by_contra other
    exact changed (by rw [stored, Memory.read_write_other _ _ other])
  exact ⟨w, d, a, b, hw, hd, by omega, by rw [stored, address, Memory.read_write_same wf.1]⟩

/-- Settles O45: an idle step changes no register, and an effect changes its destination or, in service 7, `x[1]`. -/
theorem registerWritersAreTheTable : Obligations.RegisterWritersAreTheTable := by
  intro s t q h changed
  rcases step_idle_or_effect h with idle | ⟨w, i, hw, hd, effect⟩
  · exact absurd (idle.reg q) changed
  rcases effect.reg_cases q with same | dest | ⟨⟨d, a, b, hi⟩, h0, hq⟩
  · exact absurd same changed
  · exact ⟨w, i, hw, hd, .inl dest⟩
  · exact ⟨w, i, hw, hd, .inr ⟨⟨d, a, b, hi⟩, h0, hq⟩⟩

theorem step_imem {s t : State} (h : step s = .next t) : t.imem = s.imem := by
  rcases step_idle_or_effect h with idle | ⟨_, _, -, -, effect⟩
  · exact idle.imem
  · exact effect.imem_eq

/-- Settles O46: each step keeps the instruction region, so each run does. -/
theorem runNeverChangesProgram : Obligations.RunNeverChangesProgram :=
  run_relation (fun _ => rfl) (fun _ _ _ first rest => rest.trans first) fun _ _ => step_imem

/-- Settles O47: only the effects of services 1, 2 and 3 touch the output, and they append. -/
theorem outputGrowsOnlyBySyscall : Obligations.OutputGrowsOnlyBySyscall := by
  intro s t h
  rcases step_idle_or_effect h with idle | ⟨w, i, hw, hd, effect⟩
  · exact ⟨[], by rw [idle.out, List.append_nil], fun appended => absurd rfl appended⟩
  rcases effect.out_cases with same | ⟨d, a, b, text, rfl, service, out⟩
  · exact ⟨[], by rw [same, List.append_nil, State.countCycle_out], fun appended => absurd rfl appended⟩
  · exact ⟨text, out, fun _ => ⟨service, w, d, a, b, hw, hd⟩⟩

/-- The step that draws an answer of the host is a syscall with `x[0] = 7`, and draws one. -/
theorem step_draws {s t : State} (h : step s = .next t) (drawn : t.timeCalls ≠ s.timeCalls) :
    t.timeCalls = s.timeCalls + 1 ∧ s.reg 0 = 7#16 ∧
      ∃ (w : Word) (d a b : Reg), s.imem[s.pc]? = some w ∧ decode w = .ok (.syscall d a b) := by
  rcases step_idle_or_effect h with idle | ⟨w, i, hw, hd, effect⟩
  · exact absurd idle.timeCalls drawn
  rcases effect.timeCalls_cases with same | ⟨d, a, b, rfl, h0, one⟩
  · exact absurd same drawn
  · exact ⟨one, h0, w, d, a, b, hw, hd⟩

end Sys2Proof.Machine
end

section
/-! The run: what a halted machine does, how cycles are counted, and that every run ends (R81 to R85). -/

namespace Sys2Proof.Machine

/-- Settles O43, by the step's inversion. -/
theorem everyStepAnswersNext : Obligations.EveryStepAnswersNext := step_next

theorem runSteps_of_halted {s : State} (hs : s.status ≠ .running) (k : Nat) : runSteps k s = .next s := by
  induction k with
  | zero => rfl
  | succ k ih => rw [runSteps_succ (step_of_halted hs), ih]

/-- Settles O40, by induction on the number of steps. -/
theorem haltedStateNeverChanges : Obligations.HaltedStateNeverChanges := fun _ k hs => runSteps_of_halted hs k

/-- A step that starts a cycle counts it, however the cycle ends. -/
theorem step_cycles {s t : State} (hs : s.startsCycle) (h : step s = .next t) : t.cycles = s.cycles + 1 := by
  rcases step_cycle_cases hs h with ⟨_, _, -, -, effect⟩ | ⟨_, _, -, -, rfl⟩ | ⟨-, rfl⟩
  · exact effect.cycles_eq
  · rfl
  · rfl

/-- A step that leaves the machine running has started a cycle. -/
theorem startsCycle_of_running {s t : State} (h : step s = .next t) (running : t.status = .running) :
    s.startsCycle := by
  rcases step_cases h with ⟨halted, rfl⟩ | ⟨-, -, rfl⟩ | hs
  · exact absurd running halted
  · cases running
  · exact hs

/-- A run that leaves the machine running has started from a running machine. -/
theorem running_of_run {k : Nat} {s t : State} (h : runSteps k s = .next t) (running : t.status = .running) :
    s.status = .running := by
  by_contra halted
  rw [runSteps_of_halted halted] at h
  cases h
  exact halted running

/-- Settles O52: by induction on the run, whose every step leaves a running machine and so counts one cycle. -/
theorem eachStepIsOneCycle : Obligations.EachStepIsOneCycle := by
  intro k
  induction k with
  | zero => intro s t h _; cases h; rfl
  | succ k ih =>
    intro s t h running
    obtain ⟨u, first, rest⟩ := runSteps_succ_cases h
    have counted := step_cycles (startsCycle_of_running first (running_of_run rest running)) first
    rw [ih u t rest running, counted]
    omega

/-- A machine with `n` cycles left is halted after `n + 1` steps. -/
theorem run_halts_of_cycles_left (n : Nat) (s : State) (left : s.cycles + n = Config.maxCycles) :
    ∃ t, runSteps (n + 1) s = .next t ∧ t.status ≠ .running := by
  induction n generalizing s with
  | zero =>
    by_cases running : s.status = .running
    · refine ⟨s.reachCeiling, ?_, by rw [State.reachCeiling_status]; decide⟩
      rw [runSteps_succ (step_of_ceiling running left.ge), runSteps_zero]
    · exact ⟨s, runSteps_of_halted running _, running⟩
  | succ n ih =>
    by_cases running : s.status = .running
    · obtain ⟨u, first⟩ := step_next s
      have counted := step_cycles ⟨running, by omega⟩ first
      rw [runSteps_succ first]
      exact ih u (by omega)
    · exact ⟨s, runSteps_of_halted running _, running⟩

/-- Settles O53: by induction on the cycles that are left. -/
theorem everyRunHalts : Obligations.EveryRunHalts := fun s below =>
  run_halts_of_cycles_left _ s (Nat.add_sub_of_le below)

end Sys2Proof.Machine
end

section
/-! The invariant of the machine: each operation on the state keeps it, so each effect and each step does. -/

namespace Sys2Proof.Machine

section Operations

variable {s : State}

/-- A halt dumps the registers it leaves (R165). -/
theorem State.Inv.halt (h : s.Inv) (st : Status) (notice : Diag) : (s.halt st notice).Inv := by
  obtain ⟨canonical, low, program, pc, cycles, -⟩ := h
  exact ⟨canonical, low, program, pc, cycles, fun _ => by simp⟩

theorem State.Inv.setPc (h : s.Inv) {p : Nat} (hp : p ≤ 1024) : State.Inv { s with pc := p } := by
  obtain ⟨canonical, low, program, -, cycles, dump⟩ := h
  exact ⟨canonical, low, program, hp, cycles, dump⟩

theorem State.Inv.countCycle (h : s.Inv) (below : s.cycles < Config.maxCycles) : s.countCycle.Inv := by
  obtain ⟨canonical, low, program, pc, -, dump⟩ := h
  exact ⟨canonical, low, program, pc, below, dump⟩

/-- A write in the lower half of the address range, where every store's is (R48). -/
theorem State.Inv.setDmem (h : s.Inv) {a : Nat} (ha : a < 32768) (v : Word) :
    State.Inv { s with dmem := s.dmem.write a v } := by
  obtain ⟨canonical, low, rest⟩ := h
  refine ⟨Memory.wf_write canonical (by rw [dataWords_eq]; omega) v, fun c hc => ?_, rest⟩
  rcases Memory.mem_write hc with old | ⟨rfl, -⟩
  · exact low c old
  · exact ha

theorem State.Inv.emit (h : s.Inv) (text : List Word) : (s.emit text).Inv := h

theorem State.Inv.suspend (h : s.Inv) (v : Word) : (s.suspend v).Inv := h

theorem State.Inv.drawTime (h : s.Inv) : s.drawTime.Inv := h

/-- While the machine runs nothing is asked of the registers. -/
theorem State.Inv.setReg (h : s.Inv) (running : s.status = .running) (r : Reg) (v : Word) : (s.setReg r v).Inv := by
  obtain ⟨canonical, low, program, pc, cycles, -⟩ := h
  exact ⟨canonical, low, program, pc, cycles, fun halted => absurd running halted⟩

/-- While the machine runs nothing is asked of the diagnostics. -/
theorem State.Inv.diagnose (h : s.Inv) (running : s.status = .running) (records : List Diag) :
    (s.diagnose records).Inv := by
  obtain ⟨canonical, low, program, pc, cycles, -⟩ := h
  exact ⟨canonical, low, program, pc, cycles, fun halted => absurd running halted⟩

end Operations

/-- A non-negative data address is below 32768 (R48). -/
theorem dataAddress_toNat_lt (s : State) (r : Reg) : (s.dataAddress r).toNat < 32768 := by
  have := signed_bounds (s.reg r)
  simp only [State.dataAddress]
  omega

/-- An instruction fetched below address 1024 keeps the invariant. -/
theorem Effect.inv {i : Instr} {s t : State} (h : Effect i s t) (inv : s.Inv) (running : s.status = .running)
    (fetched : s.pc < 1024) : t.Inv := by
  have next {u : State} (hu : u.Inv) : State.Inv { u with pc := s.pc + 1 } := hu.setPc fetched
  cases h with
  | badIndex j => exact inv.halt _ _
  | write d v => exact next (inv.setReg running d v)
  | goto p hp => exact inv.setPc (by omega)
  | store d a b => exact next (inv.setDmem (dataAddress_toNat_lt s a) _)
  | badAddress d a b => exact inv.halt _ _
  | divZero d a b => exact (next inv).halt _ _
  | terminate d a b => exact (next inv).halt _ _
  | print d a b text => exact next (inv.emit text)
  | scanFault d a b text => exact (next (inv.emit text)).halt _ _
  | sleep d a b => exact next (inv.suspend _)
  | getTime d a b => exact next (inv.setReg running 1 _).drawTime
  | unimplemented d a b => exact next (inv.diagnose running _)

/-- In a state of the invariant a word that is fetched stands below address 1024 (R14, R19). -/
theorem State.Inv.pc_lt_of_fetch {s : State} (h : s.Inv) {w : Word} (hw : s.imem[s.pc]? = some w) : s.pc < 1024 := by
  obtain ⟨-, -, program, -⟩ := h
  obtain ⟨inside, -⟩ := List.getElem?_eq_some_iff.mp hw
  rw [maxInstr_eq] at program
  omega

/-- Settles O51: the step's inversion, with the cycle counted below the ceiling and `pc` moved on only from a fetched
word. -/
theorem stepKeepsInvariant : Obligations.StepKeepsInvariant := by
  intro s t inv h
  rcases step_cases h with ⟨-, rfl⟩ | ⟨-, -, rfl⟩ | hs
  · exact inv
  · exact inv.halt _ _
  have counted : s.countCycle.Inv := inv.countCycle hs.2
  rcases step_cycle_cases hs h with ⟨w, i, hw, -, effect⟩ | ⟨w, e, hw, -, rfl⟩ | ⟨-, rfl⟩
  · exact effect.inv counted hs.1 (inv.pc_lt_of_fetch hw)
  · exact (counted.setPc (inv.pc_lt_of_fetch hw)).halt _ _
  · exact counted.halt _ _

/-! ### The start of a run (R170) -/

theorem start_of_le {words : List Word} (h : words.length ≤ 1024) :
    State.start words = .ok { State.reset with imem := words } := if_pos h

theorem start_of_gt {words : List Word} (h : 1024 < words.length) :
    State.start words = .error .loadFormatError := if_neg (Nat.not_le.mpr h)

/-- What `start` answers, when it answers a state. -/
theorem start_eq_ok_iff {words : List Word} {s : State} :
    State.start words = .ok s ↔ words.length ≤ 1024 ∧ s = { State.reset with imem := words } := by
  rcases Nat.lt_or_ge 1024 words.length with long | short
  · simp [start_of_gt long, Nat.not_le.mpr long]
  · simp [start_of_le short, short, eq_comm]

@[simp] theorem reset_reg (r : Reg) : State.reset.reg r = 0#16 := by
  simp [State.reg, State.reset]

/-- Settles O34: the two branches of `start`, and the reset value of each part of the state. -/
theorem startLoadsAndResets : Obligations.StartLoadsAndResets := fun _ =>
  ⟨fun short => ⟨_, start_of_le short, reset_reg, fun _ => rfl, rfl, rfl, rfl, rfl, rfl, rfl, rfl⟩, start_of_gt⟩

theorem inv_of_loaded {words : List Word} (h : words.length ≤ 1024) :
    State.Inv { State.reset with imem := words } :=
  ⟨reset_dmem_wf, by simp [State.reset], h, Nat.zero_le _, Nat.zero_le _, fun halted => absurd rfl halted⟩

/-- Settles O50: the reset state is the one loaded with no word, and every start gives a loaded one. -/
theorem invariantAtStart : Obligations.InvariantAtStart := by
  refine ⟨inv_of_loaded (words := []) (Nat.zero_le _), fun words s started => ?_⟩
  obtain ⟨short, rfl⟩ := start_eq_ok_iff.mp started
  exact inv_of_loaded short

/-! ### The step by what is fetched (R81, R84) -/

/-- A cycle that fetches a word that decodes runs its instruction. -/
theorem step_of_decode {s : State} {w : Word} {i : Instr} (hs : s.startsCycle) (hw : s.imem[s.pc]? = some w)
    (hd : decode w = .ok i) : step s = exec i s.countCycle := by
  simp only [step_of_startsCycle hs, cycle, fetch_eq, State.countCycle_imem, State.countCycle_pc, hw, hd]

/-- A cycle that fetches an illegal word moves on and raises its error. -/
theorem step_of_illegal {s : State} {w : Word} {e : DecodeError} (hs : s.startsCycle) (hw : s.imem[s.pc]? = some w)
    (hd : decode w = .error e) :
    step s = .next (State.raise { s.countCycle with pc := s.pc + 1 } (Err.ofDecode e)) := by
  simp only [step_of_startsCycle hs, cycle, fetch_eq, State.countCycle_imem, State.countCycle_pc, hw, hd,
    cycleIllegal_eq]

/-- A cycle that fetches nothing raises the fetch error and moves nowhere. -/
theorem step_of_fetch_none {s : State} (hs : s.startsCycle) (hw : s.imem[s.pc]? = none) :
    step s = .next (s.countCycle.raise (.invalidInstructionAddress s.pc)) := by
  simp only [step_of_startsCycle hs, cycle, fetch_eq, State.countCycle_imem, State.countCycle_pc, hw]

/-- Settles O36. `State.countCycle` is the counted state of the statement. -/
theorem stepRunsDecodedInstruction : Obligations.StepRunsDecodedInstruction := fun _ _ _ hs hw hd =>
  step_of_decode hs hw hd

/-- Settles O35: a started machine starts its first cycle at the first loaded word. -/
theorem firstCycleRunsFirstWord : Obligations.FirstCycleRunsFirstWord := by
  intro w rest i s started hd
  obtain ⟨-, rfl⟩ := start_eq_ok_iff.mp started
  have below : (0 : Nat) < Config.maxCycles := by decide
  exact step_of_decode ⟨rfl, below⟩ rfl hd

/-! ### The frames of a halt (R152, R165) -/

/-- A halt changes the status and adds the two records of R165, and no more. -/
theorem halt_frame (s : State) (st : Status) (notice : Diag) :
    let t := s.halt st notice
    s.haltsAs st notice t ∧ s.sameRegisters t ∧ s.sameMemory t ∧ t.pc = s.pc :=
  ⟨⟨rfl, rfl, rfl, rfl, rfl, rfl⟩, fun _ => rfl, ⟨fun _ => rfl, rfl⟩, rfl⟩

/-- An error of the execute step is raised after `pc` has moved on (R153). -/
theorem raise_nextPc_frame (s : State) (e : Err) :
    let t := State.raise { s with pc := s.pc + 1 } e
    s.haltsAs (.error e) (.errorReport s.cycles e) t ∧ s.sameRegisters t ∧ s.sameMemory t ∧ t.pc = s.pc + 1 :=
  halt_frame { s with pc := s.pc + 1 } _ _

/-- Settles O37: for both formats the illegal word's error is the one its decoding names. -/
theorem illegalWordHalts : Obligations.IllegalWordHalts := by
  intro s w e hs hw illegal
  have raised : step s = .next (State.raise { s.countCycle with pc := s.pc + 1 } e) := by
    rcases illegal with ⟨k, hd, rfl⟩ | ⟨k, hd, rfl⟩ <;> exact step_of_illegal hs hw hd
  exact ⟨_, raised, raise_nextPc_frame s.countCycle e⟩

/-- Settles O38: at or beyond the loaded count there is no word to fetch. -/
theorem fetchBeyondProgramHalts : Obligations.FetchBeyondProgramHalts := fun s hs beyond =>
  ⟨_, step_of_fetch_none hs (List.getElem?_eq_none beyond), halt_frame s.countCycle _ _⟩

/-- Settles O39: at the ceiling the step is the halt alone. -/
theorem ceilingStopsTheRun : Obligations.CeilingStopsTheRun := fun s running spent =>
  ⟨_, step_of_ceiling running spent, halt_frame s _ _⟩

end Sys2Proof.Machine
end

section
/-! The readings of words and immediates (R7, R54, R95). -/

namespace Sys2Proof.Machine

/-- Wrapping forgets the difference between a sum of signed readings and one of unsigned readings (R95). -/
theorem wrap16_signed_add (v w : Word) : wrap16 (signed v + signed w) = v + w := by
  rw [wrap16_eq_ofInt, BitVec.ofInt_add, ← wrap16_eq_ofInt, ← wrap16_eq_ofInt, wrap16_signed, wrap16_signed]

theorem wrap16_signed_sub (v w : Word) : wrap16 (signed v - signed w) = v - w := by
  rw [wrap16_eq_ofInt, Int.sub_eq_add_neg, BitVec.ofInt_add, BitVec.ofInt_neg, ← wrap16_eq_ofInt, ← wrap16_eq_ofInt,
    wrap16_signed, wrap16_signed, BitVec.sub_eq_add_neg]

theorem wrap16_signed_mul (v w : Word) : wrap16 (signed v * signed w) = v * w := by
  rw [wrap16_eq_ofInt, BitVec.ofInt_mul, ← wrap16_eq_ofInt, ← wrap16_eq_ofInt, wrap16_signed, wrap16_signed]

/-- Settles O54: wrapped arithmetic on signed readings is the arithmetic of the words. -/
theorem wordReadings : Obligations.WordReadings :=
  ⟨wrap16_toNat, fun v w => ⟨signed_of_lt, signed_of_ge, by rw [wrap16_signed_add, BitVec.toNat_add],
    by rw [wrap16_signed_sub, BitVec.toNat_sub, Nat.add_comm], by rw [wrap16_signed_mul, BitVec.toNat_mul]⟩⟩

/-- Settles O5: bit 9 adds the six high bits, and with them the sign of the word. -/
theorem immediateReadings : Obligations.ImmediateReadings := by
  intro imm
  refine ⟨rfl, fun low => ?_, fun high => ?_⟩
  · have number := immS_toNat imm
    rw [if_pos low] at number
    rw [signed_of_lt (by omega), number]
  · have number := immS_toNat imm
    rw [if_neg (by omega)] at number
    rw [signed_of_ge (by omega), number]
    push_cast
    ring

end Sys2Proof.Machine
end

section
/-! The register file and the data region behind their checks (R11, R36, R37). -/

namespace Sys2Proof.Machine

theorem RegFile.get_reg (x : RegFile) (r : Reg) : RegFile.get x r = .ok x[r] := by
  rw [RegFile.get, checkIndex_reg]

theorem RegFile.set_reg (x : RegFile) (r : Reg) (v : Word) : RegFile.set x r v = .ok (Vector.set x r v) := by
  rw [RegFile.set, checkIndex_reg]

theorem RegFile.get_of_ge (x : RegFile) {i : Nat} (h : 8 ≤ i) :
    RegFile.get x i = .error (.invalidRegisterIndex i) := by
  rw [RegFile.get, checkIndex_of_ge h]

theorem RegFile.set_of_ge (x : RegFile) {i : Nat} (v : Word) (h : 8 ≤ i) :
    RegFile.set x i v = .error (.invalidRegisterIndex i) := by
  rw [RegFile.set, checkIndex_of_ge h]

/-- A write to a register leaves what `get` answers for any other index, a register or not. -/
theorem RegFile.get_set_other (x : RegFile) {r : Reg} {j : Nat} (v : Word) (h : j ≠ r) :
    RegFile.get (Vector.set x r v) j = RegFile.get x j := by
  rcases Nat.lt_or_ge j 8 with register | beyond
  · have other : r.val ≠ j := h.symm
    rw [RegFile.get_reg _ ⟨j, register⟩, RegFile.get_reg _ ⟨j, register⟩]
    simp [other]
  · rw [RegFile.get_of_ge _ beyond, RegFile.get_of_ge _ beyond]

/-- Settles O31: an index is a register's or fails the one check that both operations make. -/
theorem registerFileContract : Obligations.RegisterFileContract := by
  refine ⟨rfl, fun x i v => ⟨fun register => ?_, fun beyond => ?_⟩⟩
  · have written : RegFile.get (Vector.set x i v) i = .ok v := by
      rw [RegFile.get_reg _ ⟨i, register⟩]
      simp
    exact ⟨_, RegFile.set_reg x ⟨i, register⟩ v, written, fun j => RegFile.get_set_other (r := ⟨i, register⟩) x v⟩
  · exact ⟨RegFile.get_of_ge x beyond, RegFile.set_of_ge x v beyond⟩

theorem memRead_outside (m : Memory) {a : Int} (h : a < 0 ∨ 64512 ≤ a) :
    memRead m a = .error (.invalidDataAddress a) := if_pos ((outsideDataRegion_iff a).mpr h)

theorem memWrite_outside (m : Memory) {a : Int} (v : Word) (h : a < 0 ∨ 64512 ≤ a) :
    memWrite m a v = .error (.invalidDataAddress a) := if_pos ((outsideDataRegion_iff a).mpr h)

theorem memRead_inside (m : Memory) {a : Int} (h : 0 ≤ a ∧ a < 64512) : memRead m a = .ok (m.read a.toNat) := by
  rw [memRead, (outsideDataRegion_eq_false_iff a).mpr h, if_neg Bool.false_ne_true]

theorem memWrite_inside (m : Memory) {a : Int} (v : Word) (h : 0 ≤ a ∧ a < 64512) :
    memWrite m a v = .ok (m.write a.toNat v) := by
  rw [memWrite, (outsideDataRegion_eq_false_iff a).mpr h, if_neg Bool.false_ne_true]

/-- A write leaves what `MemRead` answers for any other address, inside the region or not. -/
theorem memRead_write_other (m : Memory) {a a' : Int} (v : Word) (ha : 0 ≤ a) (h : a' ≠ a) :
    memRead (m.write a.toNat v) a' = memRead m a' := by
  rcases memRead_cases m a' with ⟨low, high, read⟩ | ⟨outside, -⟩
  · rw [read, memRead_inside _ ⟨low, high⟩, Memory.read_write_other m v (by omega)]
  · rw [memRead_outside _ outside, memRead_outside _ outside]

/-- Settles O33: the one bounds test of both primitives, and the rules of read after write. -/
theorem dataAccessContract : Obligations.DataAccessContract := by
  intro m a v wf
  refine ⟨fun outside => ⟨memRead_outside m outside, memWrite_outside m v outside⟩, fun low high => ?_⟩
  have inside : 0 ≤ a ∧ a < 64512 := ⟨low, high⟩
  have written := memWrite_inside m v inside
  refine ⟨memRead_inside m inside, _, written, ?_, memWrite_wf wf written, fun a' => memRead_write_other m v low⟩
  rw [memRead_inside _ inside, Memory.read_write_same wf.1]

end Sys2Proof.Machine
end

section
/-! Subtraction and division (R92, R94). -/

namespace Sys2Proof

@[simp] theorem decodeR_one (rd rs1 rs2 : Nat) : decodeR 1#6 rd rs1 rs2 = .ok (.sub rd rs1 rs2) := rfl

namespace Machine

theorem exec_sub (rd rs1 rs2 : Nat) (s : State) :
    exec (.sub rd rs1 rs2) s = .next (arithmetic (fun A B => A - B) rd rs1 rs2 s) := rfl

/-- Settles O8: opcode 1 decodes to `sub`, whose cycle is `arithmetic` at the difference. -/
theorem subResult : Obligations.SubResult := by
  intro d a b s
  have decodes : decode (encR 1#6 d a b) = .ok (.sub d a b) := by rw [decode_encR, decodeR_one]
  exact ⟨decodes, Laws.EncodingMatchesTable.sub d a b, _, exec_sub d a b s, arithmetic_result _ d a b s⟩

theorem exec_div_reg (d a b : Reg) (s : State) : exec (.div d a b) s = .next (finishCycle s (divResult d a b s)) :=
  congrArg Host.Outcome.next (cycleR_reg d a b (fun d a b => (s, divResult d a b s)) s)

theorem exec_div_of_ne (d a : Reg) {b : Reg} {s : State} (h : s.reg b ≠ 0#16) :
    exec (.div d a b) s =
      .next { s.setReg d (wrap16 ((signed (s.reg a)).tdiv (signed (s.reg b)))) with pc := s.pc + 1 } := by
  have divisor : s.regSigned b ≠ 0 := fun zero => h (signed_eq_zero_iff.mp zero)
  rw [exec_div_reg, divResult, if_neg divisor, finishCycle_write, tdiv_eq, State.regSigned, State.regSigned]

theorem exec_div_of_zero (d a : Reg) {b : Reg} {s : State} (h : s.reg b = 0#16) :
    exec (.div d a b) s = .next (State.raise { s with pc := s.pc + 1 } .divisionByZero) := by
  have divisor : s.regSigned b = 0 := signed_eq_zero_iff.mpr h
  rw [exec_div_reg, divResult, if_pos divisor, finishCycle_fail]

/-- The quotient rounded toward zero leaves a remainder below the divisor, zero or of the dividend's sign (R94). -/
theorem tdiv_remainder (A : Int) {B : Int} (hB : B ≠ 0) :
    A = A.tdiv B * B + A.tmod B ∧ (A.tmod B).natAbs < B.natAbs ∧ (A.tmod B = 0 ∨ (A.tmod B).sign = A.sign) := by
  refine ⟨(Int.tdiv_mul_add_tmod A B).symm, ?_, ?_⟩
  · rw [Int.natAbs_tmod]
    exact Nat.mod_lt _ (Int.natAbs_pos.mpr hB)
  · rw [Int.sign_tmod]
    split_ifs with divides
    · exact .inl (Int.tmod_eq_zero_of_dvd divides)
    · exact .inr rfl

/-- Settles O11: with a zero divisor the result of the execute step is the error alone. -/
theorem divByZeroHalts : Obligations.DivByZeroHalts := fun d a _ s zero =>
  ⟨_, exec_div_of_zero d a zero, raise_nextPc_frame s _⟩

end Machine

open Machine

/-- Settles O10: the quotient is the library's `Int.tdiv`, and its remainder the `r` of the statement. -/
theorem divResult : Obligations.DivResult := by
  intro d a b s nonzero
  have divisor : signed (s.reg b) ≠ 0 := fun zero => nonzero (signed_eq_zero_iff.mp zero)
  obtain ⟨division, small, sign⟩ := tdiv_remainder (signed (s.reg a)) divisor
  obtain ⟨written, frame⟩ := setReg_nextPc_frame s d (wrap16 ((signed (s.reg a)).tdiv (signed (s.reg b))))
  exact ⟨_, exec_div_of_ne d a nonzero, ⟨_, _, division, small, sign, written, by rw [written, wrap16_toNat]⟩, frame⟩

end Sys2Proof
end

section
/-! Load and store: the addressed word, or the error of a negative address (R106, R107, R146). -/

namespace Sys2Proof.Machine

theorem State.dataAddress_of_lt {s : State} {a : Reg} (h : (s.reg a).toNat < 0x8000) :
    s.dataAddress a = (s.reg a).toNat := signed_of_lt h

theorem State.dataAddress_of_ge {s : State} {a : Reg} (h : 0x8000 ≤ (s.reg a).toNat) :
    s.dataAddress a = (s.reg a).toNat - 65536 := signed_of_ge h

theorem State.dataAddress_neg {s : State} {a : Reg} (h : 0x8000 ≤ (s.reg a).toNat) : s.dataAddress a < 0 := by
  rw [s.dataAddress_of_ge h]
  omega

theorem exec_load_reg (d a b : Reg) (s : State) : exec (.load d a b) s = .next (finishCycle s (loadResult d a s)) :=
  congrArg Host.Outcome.next (cycleR_reg d a b (fun d a _ => (s, loadResult d a s)) s)

theorem exec_store_reg (d a b : Reg) (s : State) : exec (.store d a b) s = .next (finishCycle s (storeResult a b s)) :=
  congrArg Host.Outcome.next (cycleR_reg d a b (fun _ a b => (s, storeResult a b s)) s)

theorem exec_load_of_lt (d b : Reg) {a : Reg} {s : State} (h : (s.reg a).toNat < 0x8000) :
    exec (.load d a b) s = .next { s.setReg d (s.dmem.read (s.reg a).toNat) with pc := s.pc + 1 } := by
  rw [exec_load_reg, loadResult, finishCycle_read, s.dataAddress_of_lt h, memRead_inside _ (by omega),
    Int.toNat_natCast]

theorem exec_load_of_ge (d b : Reg) {a : Reg} {s : State} (h : 0x8000 ≤ (s.reg a).toNat) :
    exec (.load d a b) s = .next (s.raise (.invalidDataAddress (s.dataAddress a))) := by
  rw [exec_load_reg, loadResult, finishCycle_read, memRead_outside _ (.inl (s.dataAddress_neg h))]

theorem exec_store_of_lt (d b : Reg) {a : Reg} {s : State} (h : (s.reg a).toNat < 0x8000) :
    exec (.store d a b) s =
      .next { s with dmem := s.dmem.write (s.reg a).toNat (s.reg b), pc := s.pc + 1 } := by
  rw [exec_store_reg, storeResult, finishCycle_store, s.dataAddress_of_lt h, memWrite_inside _ _ (by omega),
    Int.toNat_natCast]

theorem exec_store_of_ge (d b : Reg) {a : Reg} {s : State} (h : 0x8000 ≤ (s.reg a).toNat) :
    exec (.store d a b) s = .next (s.raise (.invalidDataAddress (s.dataAddress a))) := by
  rw [exec_store_reg, storeResult, finishCycle_store, memWrite_outside _ _ (.inl (s.dataAddress_neg h))]

/-- Settles O16: both instructions end in step 5 with the error of the same address. -/
theorem badDataAddressHalts : Obligations.BadDataAddressHalts := by
  intro d a b s high
  have load := exec_load_of_ge d b high
  have store := exec_store_of_ge d b high
  rw [s.dataAddress_of_ge high] at load store
  exact ⟨_, load, store, halt_frame s _ _⟩

end Sys2Proof.Machine

namespace Sys2Proof

open Machine

/-- Settles O14: the load is one register write, of the word at the address. -/
theorem loadResult : Obligations.LoadResult := by
  intro d a b s low
  exact ⟨_, exec_load_of_lt d b low, setReg_nextPc_frame s d _⟩

/-- Settles O15: the store is one memory write, and the rules of read after write say what every data word is. -/
theorem storeResult : Obligations.StoreResult := by
  intro d a b s wf low
  have address : (s.dataAddress a).toNat = (s.reg a).toNat := by rw [s.dataAddress_of_lt low, Int.toNat_natCast]
  refine ⟨_, exec_store_of_lt d b low, ?_, fun n other => ?_, address, rfl, fun _ => rfl, rfl, ⟨rfl, rfl, rfl, rfl⟩,
    ⟨rfl, rfl⟩⟩
  · rw [address]
    exact Memory.read_write_same wf.1 _ _
  · rw [address] at other
    exact Memory.read_write_other _ _ other

end Sys2Proof
end

section
/-! The unconditional jump, the ignored fields, and the refusal of ill-formed terms (R59, R74, R125). -/

namespace Sys2Proof.Machine

theorem exec_jump (rd : Nat) (imm : BitVec 10) (s : State) :
    exec (.jump rd imm) s = .next (cycleI rd (fun _ => (s, { Result.empty with jump := some (immU imm) })) s) := rfl

theorem exec_jump_reg (d : Reg) (imm : BitVec 10) (s : State) :
    exec (.jump d imm) s = .next { s with pc := imm.toNat } := by
  rw [exec_jump, cycleI_reg, finishCycle_jump, immU]

/-- The cycle of a format I term whose register field names no register ends in the validate step. -/
theorem cycleI_of_ge {rd : Nat} (h : 8 ≤ rd) (f : Reg → State × Result) (s : State) :
    cycleI rd f s = s.raise (.invalidRegisterIndex rd) := by
  rw [cycleI, checkIndex_of_ge h]

/-- Settles O26: a register field passes the validation and is not looked at again; any other is refused by it. -/
theorem jumpResult : Obligations.JumpResult := by
  intro d imm s
  have decodes : decode (encI 0#2 d imm) = .ok (.jump d imm) := by rw [decode_encI, decodeI_zero]
  refine ⟨decodes, Laws.EncodingMatchesTable.jump d imm, ⟨_, exec_jump_reg d imm s, rfl, setPc_frame s _⟩, ?_⟩
  intro r beyond
  exact ⟨_, by rw [exec_jump, cycleI_of_ge beyond], rfl⟩

/-- Settles O29: with registers in every field, the ignored ones do not occur in what the cycle does. -/
theorem ignoredFieldsDoNotMatter : Obligations.IgnoredFieldsDoNotMatter := by
  intro d a b d' a' b' imm s
  refine ⟨?_, ?_, ?_, ?_⟩
  · rw [exec_load_reg, exec_load_reg]
  · rw [exec_store_reg, exec_store_reg]
  · rw [exec_syscall_reg, exec_syscall_reg]
  · rw [exec_jump_reg, exec_jump_reg]

/-- A term is ill-formed when some register field is 8 or more (R74). -/
theorem exists_bad_field {i : Instr} (h : ¬ i.wellFormed = true) : ∃ r ∈ i.registerFields, 8 ≤ r := by
  rw [Instr.wellFormed_iff] at h
  push Not at h
  exact h

/-- The cycle of a format R term with a bad field ends in the validate step, with the error of the first such field
(R74, R142). -/
theorem cycleR_of_bad {rd rs1 rs2 : Nat} {f : Reg → Reg → Reg → State × Result} {s : State}
    (h : ∃ r ∈ [rd, rs1, rs2], 8 ≤ r) :
    ∃ j, [rd, rs1, rs2].find? (fun r => decide (8 ≤ r)) = some j ∧
      (.next (cycleR rd rs1 rs2 f s) : Host.Outcome State Fault Refusal) =
        .next (s.raise (.invalidRegisterIndex j)) := by
  rcases cycleR_cases rd rs1 rs2 f s with ⟨d, a, b, rfl, rfl, rfl, -⟩ | ⟨j, bad, refused⟩
  · have small : ∀ r ∈ [d.val, a.val, b.val], r < 8 := by simp
    obtain ⟨r, hr, bad⟩ := h
    exact absurd bad (Nat.not_le.mpr (small r hr))
  · exact ⟨j, bad, congrArg _ refused⟩

theorem cycleI_of_bad {rd : Nat} {f : Reg → State × Result} {s : State} (h : ∃ r ∈ [rd], 8 ≤ r) :
    ∃ j, [rd].find? (fun r => decide (8 ≤ r)) = some j ∧
      (.next (cycleI rd f s) : Host.Outcome State Fault Refusal) = .next (s.raise (.invalidRegisterIndex j)) := by
  obtain ⟨r, hr, bad⟩ := h
  obtain rfl := List.mem_singleton.mp hr
  exact ⟨r, by simp [bad], congrArg _ (cycleI_of_ge bad f s)⟩

theorem exec_of_bad_field {i : Instr} (h : ∃ r ∈ i.registerFields, 8 ≤ r) (s : State) :
    ∃ j, i.registerFields.find? (fun r => decide (8 ≤ r)) = some j ∧
      exec i s = .next (s.raise (.invalidRegisterIndex j)) := by
  cases i with
  | jump => exact cycleI_of_bad h
  | jumpCond => exact cycleI_of_bad h
  | mov => exact cycleI_of_bad h
  | _ => exact cycleR_of_bad h

/-- Settles O30: the validate step refuses the term, and a raised error changes nothing else. -/
theorem illFormedInstructionHalts : Obligations.IllFormedInstructionHalts := by
  intro i s illFormed
  obtain ⟨j, first, raised⟩ := exec_of_bad_field (exists_bad_field illFormed) s
  exact ⟨j, _, first, raised, halt_frame s _ _⟩

end Sys2Proof.Machine
end

section
/-! The services of `syscall`: each selector's service, and what its cycle leaves (R110 to R119). -/

namespace Sys2Proof.Machine

/-- The cycle of a syscall whose selector word picks a known service. -/
theorem exec_syscall_of_reg (d a b : Reg) {s : State} {w : Word} (selector : s.reg 0 = w)
    {service : State → State × Result} (picks : serviceOf (signed w) = service) :
    exec (.syscall d a b) s = .next (finishCycle (service s).1 (service s).2) := by
  rw [exec_syscall_reg, State.regSigned, selector, picks]

/-- The frame of a service that only prints (R113 to R115). -/
theorem emit_nextPc_frame (s : State) (text : List Word) :
    let t : State := { s.emit text with pc := s.pc + 1 }
    t.diag = s.diag ∧ t.timeCalls = s.timeCalls ∧ t.suspendRequests = s.suspendRequests ∧
      s.sameRegisters t ∧ s.sameMemory t ∧ t.pc = s.pc + 1 ∧ s.sameRun t :=
  ⟨rfl, rfl, rfl, fun _ => rfl, ⟨fun _ => rfl, rfl⟩, rfl, ⟨rfl, rfl⟩⟩

/-- Settles O21: selector 2 picks the service that prints the code 10. -/
theorem syscallPrintNewline : Obligations.SyscallPrintNewline := by
  intro d a b s selector
  have prints : exec (.syscall d a b) s = .next { s.emit [10#16] with pc := s.pc + 1 } :=
    exec_syscall_of_reg d a b selector (service := servicePrintNewline) rfl
  exact ⟨_, prints, rfl, emit_nextPc_frame s _⟩

/-- Settles O23: selector 6 picks the service that records the request. -/
theorem syscallSleep : Obligations.SyscallSleep := by
  intro d a b s selector
  have suspends : exec (.syscall d a b) s = .next { s.suspend (s.reg 1) with pc := s.pc + 1 } :=
    exec_syscall_of_reg d a b selector (service := serviceSleep) rfl
  exact ⟨_, suspends, rfl, rfl, rfl, rfl, fun _ => rfl, ⟨fun _ => rfl, rfl⟩, rfl, ⟨rfl, rfl⟩⟩

theorem exec_syscall_getTime (d a b : Reg) {s : State} (selector : s.reg 0 = 7#16) :
    exec (.syscall d a b) s = .next { (s.setReg 1 s.timeNow).drawTime with pc := s.pc + 1 } :=
  exec_syscall_of_reg d a b selector (service := serviceGetTime) rfl

/-- Settles O24: selector 7 picks the service that writes the next answer and counts it. -/
theorem syscallGetTime : Obligations.SyscallGetTime := by
  intro d a b s selector
  exact ⟨_, exec_syscall_getTime d a b selector, s.reg_setReg_same 1 _, fun q hq => s.reg_setReg_other 1 q _ hq,
    rfl, rfl, rfl, rfl, ⟨fun _ => rfl, rfl⟩, rfl, ⟨rfl, rfl⟩⟩

/-- Every selector but the six of R111 is reported (R119). -/
theorem serviceOf_of_reg_unknown {s : State} (unknown : s.reg 0 ∉ [0#16, 1#16, 2#16, 3#16, 6#16, 7#16]) :
    serviceOf (s.regSigned 0) s = (s.diagnose [.unimplementedService (s.regSigned 0)], Result.empty) := by
  rcases serviceOf_cases s with ⟨h, -⟩ | ⟨_, h, -⟩ | ⟨_, _, h, -⟩ | ⟨h, -⟩ | ⟨h, -⟩ | ⟨-, reported⟩
  · simp [h] at unknown
  · exact absurd (List.mem_cons_of_mem _ (List.mem_append_left [6#16, 7#16] h)) unknown
  · simp [h] at unknown
  · simp [h] at unknown
  · simp [h] at unknown
  · exact reported

/-- Settles O25: an unknown selector picks the service that reports it. -/
theorem syscallUnimplemented : Obligations.SyscallUnimplemented := by
  intro d a b s unknown
  have reports : exec (.syscall d a b) s =
      .next { s.diagnose [.unimplementedService (s.regSigned 0)] with pc := s.pc + 1 } := by
    rw [exec_syscall_reg, serviceOf_of_reg_unknown unknown]
    rfl
  exact ⟨_, reports, rfl, rfl, rfl, rfl, fun _ => rfl, ⟨fun _ => rfl, rfl⟩, rfl, ⟨rfl, rfl⟩⟩

/-! ### The string scan of service 1 (R113) -/

/-- The scan of a terminated text reads the text and no more. -/
theorem scanString_text {m : Memory} {text : List Word} {left a : Nat}
    (letters : ∀ (i : Nat) (w : Word), text[i]? = some w → m.read (a + i) = w ∧ w ≠ 0#16)
    (terminator : m.read (a + text.length) = 0#16) (inside : text.length < left) :
    scanString m left a = (text, none) := by
  induction text generalizing left a with
  | nil =>
    obtain ⟨left, rfl⟩ := Nat.exists_eq_succ_of_ne_zero (Nat.ne_zero_of_lt inside)
    rw [scanString, if_pos (by simpa using terminator)]
  | cons w text ih =>
    obtain ⟨left, rfl⟩ := Nat.exists_eq_succ_of_ne_zero (Nat.ne_zero_of_lt inside)
    obtain ⟨first, nonzero⟩ := letters 0 w rfl
    rw [Nat.add_zero] at first
    have rest : scanString m left (a + 1) = (text, none) := by
      refine ih (fun i v hv => ?_) ?_ (Nat.lt_of_succ_lt_succ inside)
      · rw [Nat.add_right_comm]
        exact letters (i + 1) v hv
      · rw [Nat.add_right_comm]
        exact terminator
    rw [scanString, first, if_neg nonzero, rest]

/-- The scan of a stretch with no zero word reads all of it and leaves the region at its end. -/
theorem scanString_unterminated {m : Memory} {left a : Nat}
    (letters : ∀ n, a ≤ n → n < a + left → m.read n ≠ 0#16) :
    scanString m left a = ((List.range left).map (fun k => m.read (a + k)), some ((a + left : Nat) : Int)) := by
  induction left generalizing a with
  | zero => rfl
  | succ left ih =>
    have rest := ih (a := a + 1) fun n low high => letters n (by omega) (by omega)
    rw [scanString, if_neg (letters a le_rfl (by omega)), rest, List.range_succ_eq_map, List.map_cons, List.map_map]
    simp only [Function.comp_def, Nat.add_zero, Nat.succ_eq_add_one, Nat.add_assoc, Nat.add_comm 1]

/-- The scan of a stretch with a zero word `k` places on ends there at the latest. -/
theorem scanString_terminates {m : Memory} {left a k : Nat} (zero : m.read (a + k) = 0#16) (inside : k < left) :
    ∃ text, scanString m left a = (text, none) ∧ text.length ≤ k ∧ ∀ w ∈ text, w ≠ 0#16 := by
  induction left generalizing a k with
  | zero => omega
  | succ left ih =>
    by_cases here : m.read a = 0#16
    · exact ⟨[], by rw [scanString, if_pos here], Nat.zero_le k, by simp⟩
    · obtain ⟨k, rfl⟩ := Nat.exists_eq_succ_of_ne_zero (n := k) fun h => here (by simpa [h] using zero)
      obtain ⟨text, rest, length, nonzero⟩ := ih (a := a + 1) (k := k) (by rwa [Nat.add_right_comm]) (by omega)
      exact ⟨m.read a :: text, by rw [scanString, if_neg here, rest], by simpa using length,
        List.forall_mem_cons.mpr ⟨here, nonzero⟩⟩

/-- From a non-negative start the scan has the rest of the data region before it. -/
theorem scanFrom_natCast (m : Memory) {n : Nat} (h : n < 64512) : scanFrom m n = scanString m (64512 - n) n := by
  have inside : outsideDataRegion n = false := (outsideDataRegion_eq_false_iff n).mpr (by omega)
  rw [scanFrom, inside, if_neg Bool.false_ne_true, Int.toNat_natCast, dataWords_eq]

theorem scanFrom_of_neg (m : Memory) {a : Int} (h : a < 0) : scanFrom m a = ([], some a) :=
  if_pos ((outsideDataRegion_iff a).mpr (.inl h))

section PrintString

variable (d a b : Reg) {s : State} (selector : s.reg 0 = 1#16)

include selector

/-- Service 1 when the scan ends at a zero word. -/
theorem exec_printString_of_text {text : List Word} (scan : scanFrom s.dmem (s.dataAddress 1) = (text, none)) :
    exec (.syscall d a b) s = .next { s.emit text with pc := s.pc + 1 } := by
  rw [exec_syscall_of_reg d a b selector (service := servicePrintString) rfl, servicePrintString, scan]
  rfl

/-- Service 1 when the scan leaves the region (R120). -/
theorem exec_printString_of_fault {text : List Word} {n : Int}
    (scan : scanFrom s.dmem (s.dataAddress 1) = (text, some n)) :
    exec (.syscall d a b) s =
      .next (State.raise { s.emit (partialText Config.syscall1PartialOutput text) with pc := s.pc + 1 }
        (.syscallFault n)) := by
  rw [exec_syscall_of_reg d a b selector (service := servicePrintString) rfl, servicePrintString, scan]
  rfl

end PrintString

/-- Settles O18: the scan reads exactly the text. -/
theorem syscallPrintString : Obligations.SyscallPrintString := by
  intro d a b s text selector low letters terminator inside
  rw [dataWords_eq] at inside
  have scan : scanFrom s.dmem (s.dataAddress 1) = (text, none) := by
    rw [s.dataAddress_of_lt low, scanFrom_natCast _ (by omega)]
    exact scanString_text letters terminator (by omega)
  exact ⟨_, exec_printString_of_text d a b selector scan, rfl, emit_nextPc_frame s text⟩

/-- What is left of a text scanned before a fault, for either value of the open parameter (R5, R113). -/
theorem partialText_eq (p : PartialOutput) (text : List Word) :
    partialText p text = if p = .emitPrefix then text else [] := by
  cases p <;> rfl

@[simp] theorem partialText_nil (p : PartialOutput) : partialText p [] = [] := by
  cases p <;> rfl

/-- Settles O19: from a negative start the scan reads nothing, and with no zero word it reads the region to its
end. -/
theorem syscallPrintStringFaults : Obligations.SyscallPrintStringFaults := by
  intro d a b s selector
  refine ⟨fun high => ?_, fun low letters => ?_⟩
  · have faults := exec_printString_of_fault d a b selector (scanFrom_of_neg s.dmem (s.dataAddress_neg high))
    rw [partialText_nil, s.dataAddress_of_ge high] at faults
    obtain ⟨⟨status, diag, cycles, -, time, requests⟩, frame⟩ := raise_nextPc_frame s
      (.syscallFault ((s.reg 1).toNat - 65536))
    exact ⟨_, faults, ⟨status, diag, cycles, List.append_nil _, time, requests⟩, frame⟩
  · have scan : scanFrom s.dmem (s.dataAddress 1) =
        ((List.range (64512 - (s.reg 1).toNat)).map (fun k => s.dmem.read ((s.reg 1).toNat + k)), some 64512) := by
      rw [s.dataAddress_of_lt low, scanFrom_natCast _ (by omega),
        scanString_unterminated fun n start stop => letters n start (by rw [dataWords_eq]; omega),
        Nat.add_sub_of_le (by omega)]
      rfl
    refine ⟨_, exec_printString_of_fault d a b selector scan, rfl, ?_, fun _ => rfl, ⟨fun _ => rfl, rfl⟩, rfl⟩
    rw [← partialText_eq]
    rfl

/-- In a state of the invariant every data word from relative address 32768 on is zero. -/
theorem State.Inv.read_high {s : State} (h : s.Inv) {n : Nat} (high : 32768 ≤ n) : s.dmem.read n = 0#16 := by
  obtain ⟨-, low, -⟩ := h
  exact Memory.read_of_not_listed fun c hc => (lt_of_lt_of_le (low c hc) high).ne

/-- Settles O20: the zero word at 32768 ends every scan that starts below it. -/
theorem printStringFromValidStartCompletes : Obligations.PrintStringFromValidStartCompletes := by
  intro d a b s inv selector low
  have zero : s.dmem.read ((s.reg 1).toNat + (32768 - (s.reg 1).toNat)) = 0#16 := inv.read_high (by omega)
  obtain ⟨text, scan, length, nonzero⟩ := scanString_terminates (left := 64512 - (s.reg 1).toNat) zero (by omega)
  rw [← scanFrom_natCast _ (by omega), ← s.dataAddress_of_lt low] at scan
  exact ⟨_, text, exec_printString_of_text d a b selector scan, rfl, by omega, nonzero, ⟨rfl, rfl⟩, rfl⟩

/-! ### The decimal numeral of service 3 (R115) -/

theorem decimalDigits_lt_ten (fuel n : Nat) : ∀ d ∈ decimalDigits fuel n, d < 10 := by
  induction fuel generalizing n with
  | zero => simp [decimalDigits]
  | succ fuel ih =>
    rw [decimalDigits]
    split_ifs with small
    · simpa using small
    · intro d hd
      rcases List.mem_append.mp hd with front | last
      · exact ih _ d front
      · rw [List.mem_singleton.mp last]
        exact Nat.mod_lt n (by decide)

/-- With enough fuel the digits denote the number. -/
theorem foldl_decimalDigits {fuel n : Nat} (h : n < fuel) :
    (decimalDigits fuel n).foldl (fun v d => 10 * v + d) 0 = n := by
  induction fuel generalizing n with
  | zero => omega
  | succ fuel ih =>
    rw [decimalDigits]
    split_ifs with small
    · simp
    · rw [List.foldl_append, ih (by omega), List.foldl_cons, List.foldl_nil, Nat.div_add_mod]

theorem decimalDigits_ne_nil (fuel n : Nat) : decimalDigits (fuel + 1) n ≠ [] := by
  rw [decimalDigits]
  split_ifs <;> simp

/-- A positive number has no leading zero. -/
theorem decimalDigits_head?_ne_zero {fuel n : Nat} (h : n < fuel) (positive : 0 < n) :
    (decimalDigits fuel n).head? ≠ some 0 := by
  induction fuel generalizing n with
  | zero => omega
  | succ fuel ih =>
    rw [decimalDigits]
    split_ifs with small
    · simpa using positive.ne'
    · obtain ⟨fuel, rfl⟩ := Nat.exists_eq_succ_of_ne_zero (n := fuel) (by omega)
      rw [List.head?_append_of_ne_nil _ (decimalDigits_ne_nil fuel _)]
      exact ih (by omega) (by omega)

/-- The character code of a decimal digit (R115). -/
def digitCode (d : Nat) : Word := BitVec.ofNat 16 (48 + d)

theorem digitCode_toNat {d : Nat} (h : d < 10) : (digitCode d).toNat = 48 + d := by
  rw [digitCode, BitVec.toNat_ofNat, Nat.mod_eq_of_lt (by omega)]

/-- A text of digit codes denotes what its digits do. -/
theorem digitsValue_map_digitCode {digits : List Nat} (small : ∀ d ∈ digits, d < 10) :
    digitsValue (digits.map digitCode) = digits.foldl (fun v d => 10 * v + d) 0 := by
  rw [digitsValue, List.foldl_map]
  refine List.foldl_ext _ _ _ fun v d hd => ?_
  rw [digitCode_toNat (small d hd), Nat.add_sub_cancel_left]

/-- The digits of the numeral of `n`, without a sign. -/
def numeral (n : Nat) : List Word := (decimalDigits (n + 1) n).map digitCode

theorem decimal_eq (z : Int) : decimal z = (if z < 0 then [45#16] else []) ++ numeral z.natAbs := rfl

theorem numeral_ne_nil (n : Nat) : numeral n ≠ [] := by
  simpa [numeral] using decimalDigits_ne_nil n n

theorem numeral_codes (n : Nat) : ∀ c ∈ numeral n, 48 ≤ c.toNat ∧ c.toNat ≤ 57 := by
  intro c hc
  obtain ⟨d, hd, rfl⟩ := List.mem_map.mp hc
  have small := decimalDigits_lt_ten _ _ d hd
  rw [digitCode_toNat small]
  omega

theorem digitsValue_numeral (n : Nat) : digitsValue (numeral n) = n := by
  rw [numeral, digitsValue_map_digitCode (decimalDigits_lt_ten _ _), foldl_decimalDigits n.lt_succ_self]

/-- Only zero's numeral starts with the code of 0. -/
theorem numeral_no_leading_zero {n : Nat} (h : (numeral n).head? = some 48#16) : numeral n = [48#16] := by
  rcases Nat.eq_zero_or_pos n with rfl | positive
  · rfl
  · rw [numeral, List.head?_map, Option.map_eq_some_iff] at h
    obtain ⟨d, head, code⟩ := h
    have value := digitCode_toNat (decimalDigits_lt_ten _ _ d (List.mem_of_mem_head? head))
    rw [code] at value
    obtain rfl : d = 0 := by simpa using value
    exact absurd head (decimalDigits_head?_ne_zero n.lt_succ_self positive)

/-- Settles O22: the printed text is the sign and the numeral of the absolute value. -/
theorem syscallPrintInteger : Obligations.SyscallPrintInteger := by
  intro d a b s selector
  have prints : exec (.syscall d a b) s = .next { s.emit (decimal (s.regSigned 1)) with pc := s.pc + 1 } :=
    exec_syscall_of_reg d a b selector (service := servicePrintInteger) rfl
  rw [State.regSigned, decimal_eq] at prints
  exact ⟨_, numeral (signed (s.reg 1)).natAbs, prints, rfl, numeral_ne_nil _, numeral_codes _, digitsValue_numeral _,
    numeral_no_leading_zero, emit_nextPc_frame s _⟩

end Sys2Proof.Machine
end

section
/-! Halts and errors: their records, and what an error has changed (R152, R153, R165). -/

namespace Sys2Proof.Machine

/-- The notice that goes with a status, under the number of the current cycle (R152, R165). -/
def haltNotice (cycles : Nat) : Status → Option Diag
  | .running => none
  | .terminated => some .terminatedNotice
  | .error e => some (.errorReport cycles e)
  | .ceilingReached => some (.ceilingNotice cycles)

/-- The records since `s` are those of R165 for the status of `t`; one that runs owes none. -/
def State.HaltRecorded (s t : State) : Prop :=
  ∀ notice, haltNotice t.cycles t.status = some notice → t.diag = s.diag ++ [notice, Diag.registerDump t.x]

theorem State.haltRecorded_of_running {s t : State} (h : t.status = .running) : s.HaltRecorded t := by
  intro notice owed
  rw [h] at owed
  cases owed

/-- The one operation of a halt appends its notice and the dump. -/
theorem State.haltRecorded_halt {s t : State} {st : Status} {notice : Diag}
    (owed : haltNotice t.cycles st = some notice) (h : t.diag = s.diag) : s.HaltRecorded (t.halt st notice) := by
  intro other hother
  obtain rfl : notice = other := Option.some.inj (owed.symm.trans hother)
  rw [State.halt_diag, h, State.halt_x]

theorem State.haltRecorded_raise {s t : State} (e : Err) (h : t.diag = s.diag) : s.HaltRecorded (t.raise e) :=
  haltRecorded_halt rfl h

theorem Effect.haltRecorded {i : Instr} {s t : State} (h : Effect i s t) (running : s.status = .running) :
    s.HaltRecorded t := by
  cases h with
  | badIndex j => exact State.haltRecorded_raise _ rfl
  | badAddress d a b => exact State.haltRecorded_raise _ rfl
  | divZero d a b => exact State.haltRecorded_raise _ rfl
  | scanFault d a b text n => exact State.haltRecorded_raise _ rfl
  | terminate d a b => exact State.haltRecorded_halt rfl rfl
  | _ => exact State.haltRecorded_of_running running

theorem step_haltRecorded {s t : State} (running : s.status = .running) (h : step s = .next t) :
    s.HaltRecorded t := by
  rcases step_cases h with ⟨halted, -⟩ | ⟨-, -, rfl⟩ | hs
  · exact absurd running halted
  · exact State.haltRecorded_halt rfl rfl
  rcases step_cycle_cases hs h with ⟨_, _, -, -, effect⟩ | ⟨_, _, -, -, rfl⟩ | ⟨-, rfl⟩
  · exact effect.haltRecorded running
  · exact State.haltRecorded_raise _ rfl
  · exact State.haltRecorded_raise _ rfl

/-- Settles O41: each way a step can halt goes through one operation, which appends the status's notice and the
dump. -/
theorem haltRecords : Obligations.HaltRecords := by
  intro s t running h
  have recorded := step_haltRecorded running h
  exact ⟨fun e st => recorded _ (by rw [st, haltNotice]), fun st => recorded _ (by rw [st, haltNotice]),
    fun st => recorded _ (by rw [st, haltNotice])⟩

theorem wellFormed_of_decode {w : Word} {i : Instr} (h : decode w = .ok i) : ∀ r ∈ i.registerFields, r < 8 :=
  (Instr.wellFormed_iff i).mp (encode_of_decode h).2

/-- A decoded instruction has no bad register field. -/
theorem no_bad_field_of_decode {w : Word} {i : Instr} (h : decode w = .ok i) (j : Nat) :
    i.registerFields.find? (fun r => decide (8 ≤ r)) ≠ some j := by
  intro bad
  have small := wellFormed_of_decode h j (List.mem_of_find?_eq_some bad)
  have large : 8 ≤ j := by simpa using List.find?_some bad
  omega

/-- The opcode that an illegal word's error carries is the word's own (R58). -/
theorem decode_error_cases {w : Word} {e : DecodeError} (h : decode w = .error e) :
    (∃ k, e = .unknownOpcodeFormatR k ∧ k.toNat = w.toNat / 512) ∨
      (e = .unknownOpcodeFormatI 2#2 ∧ w.toNat / 8192 % 4 = 2) := by
  rcases Nat.lt_or_ge w.toNat 0x8000 with hR | hI
  · rw [decode_of_decodeRaw_r (decodeRaw_formatR hR)] at h
    rcases decodeR_cases h with ⟨_, ⟨⟩, -⟩ | ⟨⟨⟩⟩
    exact .inl ⟨_, rfl, (toNat_field w 9 6).trans (Nat.mod_eq_of_lt (by omega))⟩
  · rw [decode_of_decodeRaw_i (decodeRaw_formatI hI)] at h
    rcases decodeI_cases h with ⟨_, ⟨⟩, -⟩ | ⟨opcode, ⟨⟩⟩
    exact .inr ⟨by rw [opcode], (toNat_field w 13 2).symm.trans (congrArg BitVec.toNat opcode)⟩

/-- The cause and the info of an error that a step of `s` to `t` ends in (R140 to R148), and where `pc` stands. -/
def State.ErrorCause (s t : State) : Err → Prop
  | .invalidInstructionAddress a => a = s.pc ∧ s.loadedCount ≤ s.pc ∧ t.pc = s.pc
  | .invalidRegisterIndex _ => False
  | .unknownOpcodeFormatR k => t.pc = s.pc + 1 ∧ ∃ w : Word, s.imem[s.pc]? = some w ∧
      decode w = .error (.unknownOpcodeFormatR k) ∧ k.toNat = w.toNat / 512
  | .unknownOpcodeFormatI k => t.pc = s.pc + 1 ∧ ∃ w : Word, s.imem[s.pc]? = some w ∧
      decode w = .error (.unknownOpcodeFormatI k) ∧ k.toNat = w.toNat / 8192 % 4 ∧ k = 2#2
  | .divisionByZero => t.pc = s.pc + 1 ∧ ∃ (w : Word) (d a b : Reg), s.imem[s.pc]? = some w ∧
      decode w = .ok (.div d a b) ∧ s.reg b = 0#16
  | .invalidDataAddress n => -32768 ≤ n ∧ n < 0 ∧ t.pc = s.pc ∧ ∃ (w : Word) (d a b : Reg),
      s.imem[s.pc]? = some w ∧ (decode w = .ok (.load d a b) ∨ decode w = .ok (.store d a b)) ∧ n = s.dataAddress a
  | .syscallFault n => t.pc = s.pc + 1 ∧ s.reg 0 = 1#16 ∧
      ((n < 0 ∧ n = signed (s.reg 1)) ∨ (n = 64512 ∧ 0 ≤ signed (s.reg 1))) ∧
      ∃ (w : Word) (d a b : Reg), s.imem[s.pc]? = some w ∧ decode w = .ok (.syscall d a b)
  | .loadFormatError => False

/-- An error of the decoded instruction is one of three kinds, and its effect has written nothing but the output. -/
theorem Effect.error_precise {i : Instr} {w : Word} {s t : State} {e : Err} (h : Effect i s.countCycle t)
    (hw : s.imem[s.pc]? = some w) (hd : decode w = .ok i) (running : s.status = .running)
    (error : t.status = .error e) :
    s.sameRegisters t ∧ s.sameMemory t ∧ s.ErrorCause t e := by
  have notRunning : t.status ≠ .running := by simp [error]
  cases h with
  | badIndex j bad => exact absurd bad (no_bad_field_of_decode hd j)
  | badAddress d a b hi negative =>
    cases error
    have bounds := signed_bounds (s.reg a)
    have access : decode w = .ok (.load d a b) ∨ decode w = .ok (.store d a b) := by
      rcases hi with rfl | rfl
      · exact .inl hd
      · exact .inr hd
    exact ⟨fun _ => rfl, ⟨fun _ => rfl, rfl⟩, bounds.1, negative, rfl, w, d, a, b, hw, access, rfl⟩
  | divZero d a b hi zero =>
    cases error
    exact ⟨fun _ => rfl, ⟨fun _ => rfl, rfl⟩, rfl, w, d, a, b, hw, hi ▸ hd, zero⟩
  | scanFault d a b text n hi selector fault =>
    cases error
    exact ⟨fun _ => rfl, ⟨fun _ => rfl, rfl⟩, rfl, selector, fault, w, d, a, b, hw, hi ▸ hd⟩
  | terminate d a b => cases error
  | _ => exact absurd running notRunning

/-- An illegal word ends the cycle with its own opcode as the info. -/
theorem illegal_precise {s : State} {w : Word} {e : DecodeError} (hw : s.imem[s.pc]? = some w)
    (hd : decode w = .error e) :
    s.ErrorCause (State.raise { s.countCycle with pc := s.pc + 1 } (Err.ofDecode e)) (Err.ofDecode e) := by
  rcases decode_error_cases hd with ⟨k, rfl, number⟩ | ⟨rfl, number⟩
  · exact ⟨rfl, w, hw, hd, number⟩
  · exact ⟨rfl, w, hw, hd, number.symm, rfl⟩

theorem step_error_precise {s t : State} {e : Err} (running : s.status = .running) (h : step s = .next t)
    (error : t.status = .error e) : s.sameRegisters t ∧ s.sameMemory t ∧ s.ErrorCause t e := by
  rcases step_cases h with ⟨halted, -⟩ | ⟨-, -, rfl⟩ | hs
  · exact absurd running halted
  · cases error
  rcases step_cycle_cases hs h with ⟨w, i, hw, hd, effect⟩ | ⟨w, e, hw, hd, rfl⟩ | ⟨missing, rfl⟩
  · exact effect.error_precise hw hd running error
  · cases error
    exact ⟨fun _ => rfl, ⟨fun _ => rfl, rfl⟩, illegal_precise hw hd⟩
  · cases error
    exact ⟨fun _ => rfl, ⟨fun _ => rfl, rfl⟩, rfl, List.getElem?_eq_none_iff.mp missing, rfl⟩

/-- Settles O42: the cause of each kind of error, kind by kind. -/
theorem errorsArePrecise : Obligations.ErrorsArePrecise := by
  intro s t e running h error
  obtain ⟨registers, memory, cause⟩ := step_error_precise running h error
  exact ⟨registers, memory, by cases e <;> exact cause⟩

end Sys2Proof.Machine
end

section
/-! Noninterference: the streams and the counter of answers are surroundings that every operation carries along, and
only service 7 looks at them (R20, R21, R118, R185). -/

namespace Sys2Proof.Machine

/-- Other surroundings of a state: what stands before its streams, and what its counter of answers reads. -/
structure Surroundings where
  /-- Written before the output. -/
  out : List Word
  /-- Recorded before the diagnostics. -/
  diag : List Diag
  /-- Requested before the requests to suspend. -/
  suspendRequests : List Int
  /-- The counter of answers in terms of the state's own. -/
  timeCalls : Nat → Nat

/-- The state in other surroundings. -/
def State.within (s : State) (σ : Surroundings) : State :=
  { s with
    out := σ.out ++ s.out
    diag := σ.diag ++ s.diag
    suspendRequests := σ.suspendRequests ++ s.suspendRequests
    timeCalls := σ.timeCalls s.timeCalls }

/-- The next answer of the host is the same, and is counted. -/
def Surroundings.AnswersAs (σ : Surroundings) (n : Nat) : Prop :=
  Config.timeNow (σ.timeCalls n) = Config.timeNow n ∧ σ.timeCalls (n + 1) = σ.timeCalls n + 1

section Operations

variable (s : State) (σ : Surroundings)

/-! ### Every operation on the state commutes with a change of surroundings -/

@[simp] theorem State.within_dmem : (s.within σ).dmem = s.dmem := rfl

@[simp] theorem State.within_dataAddress (r : Reg) : (s.within σ).dataAddress r = s.dataAddress r := rfl

theorem State.within_setReg (r : Reg) (v : Word) : (s.within σ).setReg r v = (s.setReg r v).within σ := rfl

theorem State.within_emit (text : List Word) : (s.within σ).emit text = (s.emit text).within σ := by
  simp [State.within, State.emit]

theorem State.within_diagnose (records : List Diag) :
    (s.within σ).diagnose records = (s.diagnose records).within σ := by
  simp [State.within, State.diagnose]

theorem State.within_suspend (v : Word) : (s.within σ).suspend v = (s.suspend v).within σ := by
  simp [State.within, State.suspend]

theorem State.within_halt (st : Status) (notice : Diag) :
    (s.within σ).halt st notice = (s.halt st notice).within σ := by
  simp [State.within, State.halt, State.diagnose]

theorem State.within_raise (e : Err) : (s.within σ).raise e = (s.raise e).within σ := s.within_halt σ _ _

theorem State.within_finish : (s.within σ).finish = s.finish.within σ := s.within_halt σ _ _

/-! ### So does every step of a cycle -/

theorem writeBack_within (res : Result) : writeBack (s.within σ) res = (writeBack s res).within σ := by
  unfold writeBack
  split <;> rfl

theorem updatePc_within (res : Result) : updatePc (s.within σ) res = (updatePc s res).within σ := rfl

theorem checkTermination_within (res : Result) :
    checkTermination (s.within σ) res = (checkTermination s res).within σ := by
  rcases res with ⟨_, _, _, _, _ | _, _ | e⟩
  · rfl
  · exact s.within_raise σ e
  · exact s.within_finish σ
  · simp only [checkTermination, if_true, State.within_finish, State.within_raise]

/-- Steps 6 to 8. -/
theorem afterAccess_within (res : Result) :
    checkTermination (updatePc (writeBack (s.within σ) res) res) res =
      (checkTermination (updatePc (writeBack s res) res) res).within σ := by
  rw [writeBack_within, updatePc_within, checkTermination_within]

theorem finishCycle_within (res : Result) : finishCycle (s.within σ) res = (finishCycle s res).within σ := by
  rcases hm : res.mem with _ | a | ⟨a, v⟩
  · simp only [finishCycle, accessMemory, hm, afterAccess_within]
  · rcases hr : memRead s.dmem a with e | v
    · simp only [finishCycle, accessMemory, hm, State.within_dmem, hr, State.within_raise]
    · simp only [finishCycle, accessMemory, hm, State.within_dmem, hr, afterAccess_within]
  · rcases hw : memWrite s.dmem a v with e | m
    · simp only [finishCycle, accessMemory, hm, State.within_dmem, hw, State.within_raise]
    · simp only [finishCycle, accessMemory, hm, State.within_dmem, hw]
      exact afterAccess_within { s with dmem := m } σ res

/-! ### Validation does not look at the state at all -/

variable {s σ}

theorem cycleR_within {f g : Reg → Reg → Reg → State × Result}
    {rd rs1 rs2 : Nat} (h : ∀ d a b, g d a b = ((f d a b).1.within σ, (f d a b).2)) :
    (.next (cycleR rd rs1 rs2 g (s.within σ)) : Host.Outcome State Fault Refusal) =
      .next ((cycleR rd rs1 rs2 f s).within σ) := by
  rcases hv : validateR rd rs1 rs2 with e | ⟨d, a, b⟩
  · simp only [cycleR, hv, State.within_raise]
  · simp only [cycleR, hv, h, finishCycle_within]

theorem cycleI_within {f g : Reg → State × Result} {rd : Nat} (h : ∀ d, g d = ((f d).1.within σ, (f d).2)) :
    (.next (cycleI rd g (s.within σ)) : Host.Outcome State Fault Refusal) = .next ((cycleI rd f s).within σ) := by
  rcases hv : checkIndex rd with e | d
  · simp only [cycleI, hv, State.within_raise]
  · simp only [cycleI, hv, h, finishCycle_within]

/-! ### The services -/

/-- The scan reads the data region, which is no surroundings. -/
theorem servicePrintString_within :
    servicePrintString (s.within σ) = ((servicePrintString s).1.within σ, (servicePrintString s).2) := by
  rcases hs : scanFrom s.dmem (s.dataAddress 1) with ⟨text, _ | a⟩ <;>
    simp only [servicePrintString, State.within_dmem, State.within_dataAddress, hs, State.within_emit]

theorem serviceGetTime_within (answers : σ.AnswersAs s.timeCalls) :
    serviceGetTime (s.within σ) = ((serviceGetTime s).1.within σ, (serviceGetTime s).2) := by
  obtain ⟨answer, counted⟩ := answers
  have now : (s.within σ).timeNow = s.timeNow := answer
  simp only [serviceGetTime, now, State.within_setReg]
  simp [State.within, State.drawTime, counted]

/-- Only the service that draws an answer asks that the surroundings give the same one. -/
theorem serviceOf_within (answers : s.reg 0 = 7#16 → σ.AnswersAs s.timeCalls) :
    serviceOf (s.regSigned 0) (s.within σ) =
      ((serviceOf (s.regSigned 0) s).1.within σ, (serviceOf (s.regSigned 0) s).2) := by
  unfold serviceOf
  split_ifs with h0 h1 h2 h3 h6 h7
  · rfl
  · exact servicePrintString_within
  · exact congrArg (·, Result.empty) (s.within_emit σ _)
  · exact congrArg (·, Result.empty) (s.within_emit σ _)
  · exact congrArg (·, Result.empty) (s.within_suspend σ _)
  · exact serviceGetTime_within (answers (signed_injective h7))
  · exact congrArg (·, Result.empty) (s.within_diagnose σ _)

end Operations

/-! ### Instructions and steps -/

section Steps

variable {s t : State} {σ : Surroundings}

/-- What is asked of the surroundings when an instruction draws an answer: that it be the same one. -/
def Surroundings.Suits (σ : Surroundings) (s : State) (i : Instr) : Prop :=
  (∃ rd rs1 rs2, i = .syscall rd rs1 rs2) → s.reg 0 = 7#16 → σ.AnswersAs s.timeCalls

/-- In suitable surroundings an instruction does the same: but for a syscall, what it executes reads nothing of
them. -/
theorem exec_within {i : Instr} (suits : σ.Suits s i) (h : exec i s = .next t) :
    exec i (s.within σ) = .next (t.within σ) := by
  cases i with
  | syscall rd rs1 rs2 =>
    cases h
    exact cycleR_within fun _ _ _ => serviceOf_within (suits ⟨rd, rs1, rs2, rfl⟩)
  | jump => cases h; exact cycleI_within fun _ => rfl
  | jumpCond => cases h; exact cycleI_within fun _ => rfl
  | mov => cases h; exact cycleI_within fun _ => rfl
  | _ => cases h; exact cycleR_within fun _ _ _ => rfl

/-- In surroundings that suit the instruction at `pc`, a step does the same. -/
theorem step_within (h : step s = .next t)
    (suits : s.startsCycle → ∀ w i, s.imem[s.pc]? = some w → decode w = .ok i → σ.Suits s i) :
    step (s.within σ) = .next (t.within σ) := by
  rcases step_cases h with ⟨halted, rfl⟩ | ⟨running, spent, rfl⟩ | hs
  · exact step_of_halted (s := State.within _ σ) halted
  · rw [step_of_ceiling (s := s.within σ) running spent]
    exact congrArg _ (s.within_halt σ _ _)
  have hs' : (s.within σ).startsCycle := hs
  cases hw : s.imem[s.pc]? with
  | none =>
    rw [step_of_fetch_none hs hw] at h
    cases h
    rw [step_of_fetch_none hs' hw]
    exact congrArg _ (s.countCycle.within_raise σ _)
  | some w =>
    cases hd : decode w with
    | error e =>
      rw [step_of_illegal hs hw hd] at h
      cases h
      rw [step_of_illegal hs' hw hd]
      exact congrArg _ (State.within_raise { s.countCycle with pc := s.pc + 1 } σ _)
    | ok i =>
      rw [step_of_decode hs hw hd] at h
      rw [step_of_decode hs' hw hd]
      exact exec_within (s := s.countCycle) (suits hs w i hw hd) h

end Steps

/-! ### The streams (R20, R21) -/

/-- The state with nothing in its streams. -/
def State.bare (s : State) : State := { s with out := [], diag := [], suspendRequests := [] }

/-- Surroundings with the given streams and the same answers. -/
def Surroundings.streams (o : List Word) (g : List Diag) (p : List Int) : Surroundings := ⟨o, g, p, id⟩

theorem bare_within_streams (s : State) (o : List Word) (g : List Diag) (p : List Int) :
    s.bare.within (.streams o g p) = { s with out := o, diag := g, suspendRequests := p } := by
  simp [State.within, State.bare, Surroundings.streams]

theorem step_within_streams {s t : State} (h : step s = .next t) (o : List Word) (g : List Diag) (p : List Int) :
    step (s.within (.streams o g p)) = .next (t.within (.streams o g p)) :=
  step_within h fun _ _ _ _ _ _ _ => ⟨rfl, rfl⟩

/-- Settles O48: the step of the state with bare streams gives the parts that both steps append. -/
theorem streamsNeverInfluence : Obligations.StreamsNeverInfluence := by
  intro s t o g p h
  obtain ⟨u, bare⟩ := step_next s.bare
  have own := step_within_streams bare s.out s.diag s.suspendRequests
  have other := step_within_streams bare o g p
  rw [bare_within_streams] at own other
  obtain rfl : u.within (.streams s.out s.diag s.suspendRequests) = t := by
    rw [show step s = _ from own] at h
    exact Host.Outcome.next.inj h
  exact ⟨u.out, u.diag, u.suspendRequests, rfl, rfl, rfl, other⟩

/-! ### The time (R118, R185) -/

/-- Surroundings with the same streams, in which the counter of answers reads `n`. -/
def Surroundings.counter (n : Nat) : Surroundings := ⟨[], [], [], fun _ => n⟩

theorem within_counter (s : State) (n : Nat) : s.within (.counter n) = { s with timeCalls := n } := rfl

/-- A decoded syscall with selector 7 draws an answer. -/
theorem step_getTime_draws {s t : State} {w : Word} {rd rs1 rs2 : Nat} (hs : s.startsCycle)
    (hw : s.imem[s.pc]? = some w) (hd : decode w = .ok (.syscall rd rs1 rs2)) (selector : s.reg 0 = 7#16)
    (h : step s = .next t) : t.timeCalls = s.timeCalls + 1 := by
  have wf := wellFormed_of_decode hd
  simp only [Instr.registerFields, List.forall_mem_cons] at wf
  obtain ⟨hd8, ha8, hb8, -⟩ := wf
  rw [step_of_decode hs hw hd, exec_syscall_getTime ⟨rd, hd8⟩ ⟨rs1, ha8⟩ ⟨rs2, hb8⟩ (s := s.countCycle) selector] at h
  cases h
  rfl

/-- Settles O49: service 7 alone draws, and whatever does not draw does the same at any value of the counter. -/
theorem timeEntersOnlyByGetTime : Obligations.TimeEntersOnlyByGetTime := by
  refine ⟨fun s t => step_draws, fun s t n h undrawn => ?_⟩
  rw [← within_counter, ← within_counter]
  refine step_within h fun hs w i hw hd => ?_
  rintro ⟨rd, rs1, rs2, rfl⟩ selector
  have drawn := step_getTime_draws hs hw hd selector h
  omega

end Sys2Proof.Machine
end
